-- ==== Sys2Proof/Word.lean ====
section
/-! DEFINITION. Words of the SFC: the byte of its ROMs, the 16-bit position register, the 32-bit command and
register word, and the two quantities of the position engine (41_position_arith.md R120), kept as distinct types. -/

namespace Sys2Proof

/-- One byte of the symbol ROM or the message ROM (20_memory.md R60, R61). -/
abbrev Byte := BitVec 8

/-- A 16-bit quantity: a position register (00_scope.md R10, PW = 16), MSG_NEXT (10_state.md R30), a sample on its
port (R9, SW <= 16), the IMM field of a command (30_encoding.md R81). -/
abbrev Half := BitVec 16

/-- A command word, CTRL, STATUS or RSP (30_encoding.md R80; 10_state.md R31 to R33). -/
abbrev Word := BitVec 32

/-- A step delta: an "unsigned count of steps, used for steps-per-flap and per-symbol offsets", a natural number
(41_position_arith.md R120). -/
structure StepDelta where
  steps : Nat
  deriving DecidableEq, Repr, Inhabited

/-- A step position as its 16-bit register holds it: an "unsigned count taken modulo TotalSteps" (R120, R10). That it
lies in `[0, TOTAL[i])` is the invariant of 10_state.md R27, not part of the type. -/
structure StepPos where
  reg : Half
  deriving DecidableEq, Repr, Inhabited

namespace StepPos

/-- The count a position stands for. -/
def val (p : StepPos) : Nat := p.reg.toNat

/-- Position 0: the home sensor trip point (43_bit_controller.md R154). -/
def home : StepPos := ⟨0#16⟩

end StepPos

end Sys2Proof
end

