-- ==== Sys2Proof/Syntax.lean ====
section
/-! DEFINITION. The nine operations of the SFC (00_scope.md R17, 30_encoding.md R84), one constructor a row of
spec/opcode_table.json, with the operands of 30_encoding.md R82 as the fields of the command word carry them. -/

namespace Sys2Proof

/-- READ's selector: the sixteen values of SEL (45_control_port.md R202), in the order of their codes. -/
inductive Selector where
  | state | sens | ssh | tgt | clutch | msgNext | ctrl | status
  | hoff | trig | untrig | spf | total | nbits | nrows
  /-- SEL = 15, which READ rejects with code 4 (60_exceptions.md R221). -/
  | reserved
  deriving DecidableEq, Repr, Inhabited

/-- The operations. `i` is the field IDX; a per-bit operation needs `i < N`. -/
inductive Instr where
  /-- NOP (45_control_port.md R200) -/
  | nop
  /-- CYCLE issued by the host (44_coordinator.md R186) -/
  | cycle
  /-- PROCESS i, s: `s` is the field IMM, the sample (43_bit_controller.md R158) -/
  | process (i : Byte) (s : Half)
  /-- SETTGT i, b (43_bit_controller.md R160) -/
  | settgt (i : Byte) (b : Byte)
  /-- LOOKUP b (40_symbol_lookup.md R113) -/
  | lookup (b : Byte)
  /-- ADVANCE (44_coordinator.md R188) -/
  | advance
  /-- PULSE (44_coordinator.md R189) -/
  | pulse
  /-- READ sel, i (45_control_port.md R202) -/
  | read (sel : Selector) (i : Byte)
  /-- WRCTL v (45_control_port.md R204) -/
  | wrctl (v : Bool)
  deriving DecidableEq, Repr, Inhabited

/-- The reasons a command is rejected (60_exceptions.md R221). -/
inductive CmdError where
  /-- code 1: OP in 0x9 to 0xF -/
  | illegalOp
  /-- code 2: a must-be-zero field is non-zero, or READ of a global selector with IDX != 0 -/
  | rsvdField
  /-- code 3: `IDX >= N` for a per-bit operation -/
  | badIndex
  /-- code 4: READ with SEL = 15 -/
  | badSel
  /-- code 5: PROCESS with a sample `IMM >= 2^SW` -/
  | badOperand
  deriving DecidableEq, Repr, Inhabited

end Sys2Proof
end

