-- ==== Sys2Proof/Decode.lean ====
section
/-! DEFINITION. Decoding and encoding of CMD32 (30_encoding.md R80 to R87). The decoder makes checks 1 and 2 of
60_exceptions.md R223, which need the word alone; checks 3 to 5 are made on the operands (Machine/Operands.lean,
log entry 10). -/

namespace Sys2Proof

/-- OP = word[31:28] (30_encoding.md R81). -/
def opField (w : Word) : BitVec 4 := w.extractLsb' 28 4

/-- SEL = word[27:24]. -/
def selField (w : Word) : BitVec 4 := w.extractLsb' 24 4

/-- IDX = word[23:16]. -/
def idxField (w : Word) : Byte := w.extractLsb' 16 8

/-- IMM = word[15:0]. -/
def immField (w : Word) : Half := w.extractLsb' 0 16

/-- IMM[15:8], which SETTGT and LOOKUP need zero (R82). -/
def immHigh (w : Word) : Byte := w.extractLsb' 8 8

/-- IMM[7:0], the symbol byte of SETTGT and LOOKUP (R82). -/
def immLow (w : Word) : Byte := w.extractLsb' 0 8

/-- IMM[15:1], which WRCTL needs zero (R82). -/
def immAboveBit0 (w : Word) : BitVec 15 := w.extractLsb' 1 15

/-- The selector a SEL value names (45_control_port.md R202). -/
def selectorOf (v : BitVec 4) : Selector :=
  match v.toNat with
  | 0 => .state
  | 1 => .sens
  | 2 => .ssh
  | 3 => .tgt
  | 4 => .clutch
  | 5 => .msgNext
  | 6 => .ctrl
  | 7 => .status
  | 8 => .hoff
  | 9 => .trig
  | 10 => .untrig
  | 11 => .spf
  | 12 => .total
  | 13 => .nbits
  | 14 => .nrows
  | _ => .reserved

/-- The SEL value of a selector (R202). -/
def selectorCode : Selector → BitVec 4
  | .state => 0
  | .sens => 1
  | .ssh => 2
  | .tgt => 3
  | .clutch => 4
  | .msgNext => 5
  | .ctrl => 6
  | .status => 7
  | .hoff => 8
  | .trig => 9
  | .untrig => 10
  | .spf => 11
  | .total => 12
  | .nbits => 13
  | .nrows => 14
  | .reserved => 15

/-- Accept the instruction if the must-be-zero fields are zero; otherwise code 2 RSVD_FIELD (R84, R223 check 2). -/
def requireZero (mbzZero : Bool) (i : Instr) : Except CmdError Instr :=
  if mbzZero then .ok i else .error .rsvdField

/-- The operation a word selects, or the code that rejects it: R84's table, R86 for OP 0x9 to 0xF. -/
def decode (w : Word) : Except CmdError Instr :=
  match (opField w).toNat with
  | 0 => requireZero (selField w == 0 && idxField w == 0 && immField w == 0) .nop
  | 1 => requireZero (selField w == 0 && idxField w == 0 && immField w == 0) .cycle
  | 2 => requireZero (selField w == 0) (.process (idxField w) (immField w))
  | 3 => requireZero (selField w == 0 && immHigh w == 0) (.settgt (idxField w) (immLow w))
  | 4 => requireZero (selField w == 0 && idxField w == 0 && immHigh w == 0) (.lookup (immLow w))
  | 5 => requireZero (selField w == 0 && idxField w == 0 && immField w == 0) .advance
  | 6 => requireZero (selField w == 0 && idxField w == 0 && immField w == 0) .pulse
  | 7 => requireZero (immField w == 0) (.read (selectorOf (selField w)) (idxField w))
  | 8 => requireZero (selField w == 0 && idxField w == 0 && immAboveBit0 w == 0) (.wrctl (w.getLsbD 0))
  | _ => .error .illegalOp

/-- The word with the four fields of CMD32 (R81): `OOOO SSSS IIIIIIII MMMMMMMMMMMMMMMM`. -/
def cmd32 (op sel : BitVec 4) (idx : Byte) (imm : Half) : Word := op ++ sel ++ idx ++ imm

/-- The word of an operation (30_encoding.md R89). -/
def encode : Instr → Word
  | .nop => cmd32 0x0 0 0 0
  | .cycle => cmd32 0x1 0 0 0
  | .process i s => cmd32 0x2 0 i s
  | .settgt i b => cmd32 0x3 0 i (b.setWidth 16)
  | .lookup b => cmd32 0x4 0 0 (b.setWidth 16)
  | .advance => cmd32 0x5 0 0 0
  | .pulse => cmd32 0x6 0 0 0
  | .read sel i => cmd32 0x7 (selectorCode sel) i 0
  | .wrctl v => cmd32 0x8 0 0 (if v then 1 else 0)

/-- A table row's bits as the 32-bit command word: CMD32 is one parallel word, so no byte order arises (R80;
20_memory.md R65); bits above `nbits` are 0. -/
def tableWord (nbits w : Nat) : Word := BitVec.ofNat 32 (w % 2 ^ nbits)

/-- The instruction the decoder reads from a table row's bits; `none` where it rejects them. -/
def decodeTableWord (nbits w : Nat) : Option Instr :=
  match decode (tableWord nbits w) with
  | .ok i => some i
  | .error _ => none

end Sys2Proof
end

