-- ==== Sys2Proof/Machine/Flags.lean ====
section
/-! DEFINITION. The fields of CTRL (10_state.md R31) and STATUS (R32): accessors, field writes, and the word a reader
sees, in which reserved bits are 0. -/

namespace Sys2Proof.Machine

/-- CTRL.RUN, bit 0 (R31). -/
def ctrlRun (w : Word) : Bool := w.getLsbD 0

/-- CTRL with RUN replaced and every other bit as it was (45_control_port.md R204). -/
def ctrlWithRun (w : Word) (v : Bool) : Word := (w &&& 0xFFFFFFFE#32) ||| (if v then 0x1#32 else 0x0#32)

/-- CTRL as it is read: bits 31:1 "read as 0" (R31). -/
def ctrlRead (w : Word) : Word := w &&& 0x1#32

/-- STATUS.ERR, bit 0 (R32). -/
def statusErr (w : Word) : Bool := w.getLsbD 0

/-- STATUS.ERRCODE, bits 7:4 (R32). -/
def statusErrCode (w : Word) : BitVec 4 := w.extractLsb' 4 4

/-- STATUS.IDLE, bit 8 (R32). -/
def statusIdle (w : Word) : Bool := w.getLsbD 8

/-- STATUS with ERR set. No rule clears it (60_exceptions.md R222). -/
def statusSetErr (w : Word) : Word := w ||| 0x1#32

/-- STATUS with ERRCODE replaced. -/
def statusWithErrCode (w : Word) (code : BitVec 4) : Word := (w &&& 0xFFFFFF0F#32) ||| (code.setWidth 32 <<< 4)

/-- STATUS with IDLE replaced (44_coordinator.md R186). -/
def statusWithIdle (w : Word) (v : Bool) : Word := (w &&& 0xFFFFFEFF#32) ||| (if v then 0x100#32 else 0x0#32)

/-- STATUS after a rejection with this code: ERRCODE only if ERR was 0, then ERR (60_exceptions.md R222). -/
def statusRejected (w : Word) (code : BitVec 4) : Word :=
  statusSetErr (if statusErr w then w else statusWithErrCode w code)

/-- STATUS as it is read: bits 3:1 and 31:9 "read as 0" (R32). -/
def statusRead (w : Word) : Word := w &&& 0x1F1#32

end Sys2Proof.Machine
end

