-- ==== Sys2Proof/Config.lean ====
section
/-! DEFINITION. The configuration of an SFC (00_scope.md R6 to R12; 10_state.md R26, R45), fixed when the hardware is
built, and the free values: what the environment and the host put on the input ports. -/

namespace Sys2Proof

/-- SensorState (10_state.md R22): encoding 0 = Untriggered, 1 = Triggered. -/
inductive SensorState where
  | untriggered
  | triggered
  deriving DecidableEq, Repr, Inhabited

/-- The construction-time constants of one bit (00_scope.md R8). -/
structure BitConfig where
  /-- `SPF[i]`, StepsPerFlap -/
  spf    : StepDelta
  /-- `HOFF[i]`, HomeOffset -/
  hoff   : StepDelta
  /-- `TRIG[i]`, the trigger threshold in raw sensor units -/
  trig   : Nat
  /-- `UNTRIG[i]`, the untrigger threshold in raw sensor units -/
  untrig : Nat
  deriving DecidableEq, Repr, Inhabited

/-- NSYM = 55, "a constant, not a parameter" (00_scope.md R7). -/
def nsym : Nat := 55

/-- `TOTAL[i] = SPF[i] * 55`, "derived, not free" (00_scope.md R8). -/
def BitConfig.total (b : BitConfig) : Nat := b.spf.steps * nsym

/-- The parameters of the SFC. `N` is the number of entries of `bits` and `M` the number of rows of `msgs`, so neither
can disagree with the tables. -/
structure Config where
  /-- the constants of bits `0..N-1` -/
  bits        : List BitConfig
  /-- `SYMTAB[0..54]`, the symbol ROM (20_memory.md R60) -/
  symtab      : List Byte
  /-- `SW`, the width of a sample in bits (00_scope.md R9) -/
  sw          : Nat
  /-- `MSGS[r][c]`, the message ROM (00_scope.md R11, 20_memory.md R61) -/
  msgs        : List (List Byte)
  /-- `SENS_RESET`, OPEN (92_eei_decisions.md D11) -/
  sensReset   : SensorState
  /-- `PULSE_WIDTH`, no rule reads it (R12, 70_reset_and_hazards.md R270) -/
  pulseWidth  : Nat
  /-- `SETTLE_DELAY`, no rule reads it (R12, R270) -/
  settleDelay : Nat
  deriving DecidableEq, Repr, Inhabited

namespace Config

/-- `N`, the number of bits (00_scope.md R6). -/
def n (c : Config) : Nat := c.bits.length

/-- `M`, the number of rows of the Message Sequence (00_scope.md R11). -/
def m (c : Config) : Nat := c.msgs.length

/-- The constants of bit `i` (00_scope.md R8). Every rule reads them for an `i < N` only; log entry 8 says what the
model does past that. -/
def bit (c : Config) (i : Nat) : BitConfig := c.bits.getD i default

end Config

/-- What the input pins of the command port and the reset input carry at one operation boundary (10_state.md R43, R44;
44_coordinator.md R191). `rst` stands for `rst` asserted at that boundary or at any time before the operation that
starts there completes (log entry 5). -/
structure HostInput where
  rst      : Bool
  cmdValid : Bool
  cmd      : Word
  deriving DecidableEq, Repr, Inhabited

/-- FREE VALUE: what the host presents at the boundary with this number, where State's script of inputs has ended.
"When the host presents a command relative to the sequencer's cycles is timing, and the model does not fix it"
(44_coordinator.md R191; 93_implementation_defined.md row 6; log entry 2). -/
opaque Config.freeHostInput : Nat → HostInput

/-- FREE VALUE: what port `sample_in[i]` carries at the CYCLE with this number, where State's script of samples has
ended: "any value in `[0, 2^SW)`, chosen by the environment, under no law" (10_state.md R40; log entry 3). The
arguments are the CYCLE's number and `i`. -/
opaque Config.freeSample : Nat → Nat → Half

/-- FREE VALUE: a ROM read at an index where the ROM has no byte. "Indices outside a ROM cannot arise"
(20_memory.md R66), so no state that meets the invariant reads it (log entry 8). -/
opaque Config.freeRomByte : Nat → Byte

namespace Config

/-- FIXTURE_SYMTAB of 95_test_vectors.md section 0: "a legal SYMTAB chosen for tests. It is not the device's table." -/
def fixtureSymtab : List Byte :=
  [0x20#8]
    ++ (List.range 26).map (fun k => BitVec.ofNat 8 (0x41 + k))
    ++ (List.range 10).map (fun k => BitVec.ofNat 8 (0x30 + k))
    ++ (List.range 15).map (fun k => BitVec.ofNat 8 (0x21 + k))
    ++ [0x3A#8, 0x0A#8, 0x0D#8]

/-- Config A of 95_test_vectors.md: one bit, the values of the source's examples. The two delays are the model's own
(the spec gives none, and no rule reads them). -/
def configA : Config where
  bits        := [⟨⟨58⟩, ⟨3⟩, 3000, 1000⟩]
  symtab      := fixtureSymtab
  sw          := 12
  msgs        := [[0x20#8]]
  sensReset   := .untriggered
  pulseWidth  := 1
  settleDelay := 0

/-- Config B of 95_test_vectors.md: Config A with `HOFF[0] = 348`. -/
def configB : Config := { configA with bits := [⟨⟨58⟩, ⟨348⟩, 3000, 1000⟩] }

/-- Config C of 95_test_vectors.md: two bits, small drums. -/
def configC : Config where
  bits        := [⟨⟨1⟩, ⟨0⟩, 3000, 1000⟩, ⟨⟨1⟩, ⟨2⟩, 3000, 1000⟩]
  symtab      := fixtureSymtab
  sw          := 12
  msgs        := [[0x41#8, 0x20#8], [0x20#8, 0x48#8]]
  sensReset   := .untriggered
  pulseWidth  := 1
  settleDelay := 0

/-- DESIGN CHOICE, log entry 1: the configuration of `State.reset`. The spec makes the configuration an argument of
the model; statements quantify over it (`State.resetWith`), and none rests on this choice. -/
def reference : Config := configC

end Config

end Sys2Proof
end

