-- ==== Sys2Proof/Machine/State.lean ====
section
/-! DEFINITION. The state of the SFC (10_state.md), plain data: the per-bit register file, the coordinator's registers,
the constant configuration, and, at operation granularity, the inputs still to come and the outputs of the current
operation. -/

namespace Sys2Proof.Machine

/-- BitState (10_state.md R21). Encoding value 3 is "never written by any rule", so the type has three values. -/
inductive BitState where
  | uninitialized
  | seeking
  | settled
  deriving DecidableEq, Repr, Inhabited

/-- One bit's register-file entry (10_state.md R20 to R25), the source's SplitFlapBit. -/
structure BitRegs where
  /-- `STATE[i]` -/
  state  : BitState
  /-- `SENS[i]` -/
  sens   : SensorState
  /-- `SSH[i]`, `steps_since_home` -/
  ssh    : StepPos
  /-- `TGT[i]`, `target_steps` -/
  tgt    : StepPos
  /-- `CLUTCH[i]`, which drives `clutch_en[i]` at all times -/
  clutch : Bool
  deriving DecidableEq, Repr, Inhabited

/-- One event on the SFC's outputs, or one blocking delay between two of them: "one state transition plus the output
events it emits, in order" (00_scope.md R16). Log entry 4. -/
inductive OutEvent where
  /-- the `clutch_en` outputs take these levels, all at once (10_state.md R41, 44_coordinator.md R182) -/
  | clutchEn (levels : List Bool)
  /-- the `step` line is driven to this level; a pulse is a high, a hold and a low (10_state.md R42) -/
  | step (level : Bool)
  /-- `wait(t)`: a blocking delay, during which no other operation executes (00_scope.md R15) -/
  | wait (t : Nat)
  /-- `cmd_done` pulses once (10_state.md R43) -/
  | cmdDone
  /-- `rst` asserted: outputs take their reset values. Outputs of the operation it abandons are not listed
  (70_reset_and_hazards.md R250, 92_eei_decisions.md D28, log entry 5) -/
  | reset
  deriving DecidableEq, Repr, Inhabited

/-- The machine. -/
structure State where
  /-- the configuration: no operation and no reset writes it (10_state.md R26, R45; log entry 1) -/
  cfg         : Config
  /-- the register-file entries of bits `0..N-1` (R20) -/
  bits        : List BitRegs
  /-- `MSG_NEXT` (R30) -/
  msgNext     : Half
  /-- `CTRL` (R31) -/
  ctrl        : Word
  /-- `STATUS` (R32) -/
  status      : Word
  /-- `RSP`, which drives `rsp[31:0]` (R33) -/
  rsp         : Word
  /-- the level of the `step` output (R42) -/
  stepOut     : Bool
  /-- the model's own: the input pins at the coming operation boundaries (log entry 2) -/
  hostIn      : List HostInput
  /-- the model's own: the number of boundaries so far, argument of `Config.freeHostInput` (log entry 2) -/
  hostDraws   : Nat
  /-- the model's own: the sample ports at the coming CYCLEs (log entry 3) -/
  sampleIn    : List (List Half)
  /-- the model's own: the number of CYCLEs so far, argument of `Config.freeSample` (log entry 3) -/
  sampleDraws : Nat
  /-- the model's own: the output events of the current operation, oldest first (log entry 4) -/
  out         : List OutEvent
  deriving DecidableEq, Repr, Inhabited

/-- Reasons for a fault: none. "The control logic (...) never fails, faults or stops" (60_exceptions.md R220), and a
rejected command is taken as R222 says, a next state. Nobody raises a fault; that is exact, neither safe nor unsafe. -/
inductive Fault where
  deriving DecidableEq, Repr

/-- Reasons for a refusal. -/
inductive Refusal where
  /-- Raised by an arm of `exec` whose instruction has no meaning yet (no arm raises it). Safe: nothing is claimed. -/
  | notModelled (mnemonic : String)
  /-- Raised by `step` when the configuration is not legal: "The model is defined only for legal configurations. An
  illegal one is refused before launch, toward unprovable" (00_scope.md R13; log entry 7). Safe. -/
  | illegalConfiguration
  deriving DecidableEq, Repr

namespace BitRegs

/-- One bit's registers right after reset, for a given SENS_RESET (70_reset_and_hazards.md R251). -/
def resetWith (sensReset : SensorState) : BitRegs where
  state  := .uninitialized
  sens   := sensReset
  ssh    := .home
  tgt    := .home
  clutch := false

end BitRegs

namespace State

/-- The SFC with configuration `c` right after reset (70_reset_and_hazards.md R251; the table of 10_state.md
section 4). -/
def resetWith (c : Config) : State where
  cfg         := c
  bits        := c.bits.map fun _ => BitRegs.resetWith c.sensReset
  msgNext     := 0
  ctrl        := 1
  status      := 0
  rsp         := 0
  stepOut     := false
  hostIn      := []
  hostDraws   := 0
  sampleIn    := []
  sampleDraws := 0
  out         := []

/-- The machine right after reset. Its configuration is the one of log entry 1 (DESIGN CHOICE); every register is at
the value R251 gives. -/
def reset : State := resetWith Config.reference

end State

end Sys2Proof.Machine
end

