-- ==== Sys2Proof/Machine/Ops.lean ====
section
/-! DEFINITION. The named operations every meaning is built from: reads of the two ROMs (20_memory.md R60, R61), one
bit's registers, the clutch outputs, the step pulse, the response, and the rejection of a command, which is the only
exception the SFC has (60_exceptions.md R221, R222). There is no return from it: the SFC "has no trap return
instruction and no nesting" (R227) and "goes on to the next operation boundary as after any command" (R226). -/

namespace Sys2Proof.Machine

/-- The two ROM address spaces (20_memory.md R60, R61). -/
inductive RomSpace where
  | sym
  | msg
  deriving DecidableEq, Repr

/-- `MemRead(space, a, 1)`: SYMTAB[a]; or byte `(r, c)` of the message ROM at address `a = r*N + c`. "Indices outside a
ROM cannot arise" (R66); the model reads a free value there (log entry 8). -/
def memRead (c : Config) : RomSpace → Nat → Byte
  | .sym, a => c.symtab[a]?.getD (Config.freeRomByte a)
  | .msg, a => ((c.msgs[a / c.n]?).bind fun row => row[a % c.n]?).getD (Config.freeRomByte a)

/-- The code of a command error as STATUS.ERRCODE stores it (60_exceptions.md R221). -/
def errCode : CmdError → BitVec 4
  | .illegalOp => 1
  | .rsvdField => 2
  | .badIndex => 3
  | .badSel => 4
  | .badOperand => 5

namespace State

/-- Append one output event. -/
def emit (e : OutEvent) (s : State) : State := { s with out := s.out ++ [e] }

/-- `wait(t)` (00_scope.md R15). -/
def wait (t : Nat) (s : State) : State := s.emit (.wait t)

/-- Drive the `step` line to a level. -/
def driveStep (level : Bool) (s : State) : State := emit (.step level) { s with stepOut := level }

/-- `emit_pulse()`: high, hold for PULSE_WIDTH, low; "writes no SFC register" (44_coordinator.md R183). -/
def emitPulse (s : State) : State := ((s.driveStep true).wait s.cfg.pulseWidth).driveStep false

/-- The registers of bit `i`. Every rule reads them for an `i < N` only (log entry 8). -/
def reg (s : State) (i : Nat) : BitRegs := s.bits.getD i default

/-- Write the registers of bit `i`. -/
def setReg (i : Nat) (r : BitRegs) (s : State) : State := { s with bits := s.bits.set i r }

/-- The levels of the outputs `clutch_en[0..N-1]`, "equal to `CLUTCH[i]` at all times" (10_state.md R41). -/
def clutchLevels (s : State) : List Bool := s.bits.map (·.clutch)

/-- The clutch outputs show the latches after a write of a latch. -/
def showClutches (s : State) : State := s.emit (.clutchEn s.clutchLevels)

/-- `CLUTCH[i] <- need` for one bit (43_bit_controller.md R158). -/
def setClutch (i : Nat) (need : Bool) (s : State) : State :=
  (s.setReg i { s.reg i with clutch := need }).showClutches

/-- `CLUTCH[i] <- need[i]` for every `i` at once (44_coordinator.md R182). -/
def setClutches (needs : List Bool) (s : State) : State :=
  showClutches { s with bits := List.zipWith (fun r need => { r with clutch := need }) s.bits needs }

/-- A host command completes with this response: RSP is written once and `cmd_done` pulses (10_state.md R33, R43). -/
def respond (v : Word) (s : State) : State := emit .cmdDone { s with rsp := v }

/-- `raise CmdError(code)`: "a rejected command has exactly these effects, and no others" (60_exceptions.md R222). -/
def reject (e : CmdError) (s : State) : State :=
  respond 0xFFFFFFFF#32 { s with status := statusRejected s.status (errCode e) }

/-- `RSP[k] = b[k]` for `k < min(N, 32)`, every other bit 0 (30_encoding.md R91; R186, R189). -/
def packBits (bs : List Bool) : Word := (BitVec.ofBoolListLE bs).setWidth 32

/-- The value on `sample_in[i]` at the coming CYCLE: the port is SW bits wide, and past the end of the script it
carries a free value (10_state.md R40; log entry 3). -/
def sampleAt (s : State) (i : Nat) : Nat :=
  ((s.sampleIn.headD [])[i]?.getD (Config.freeSample s.sampleDraws i)).toNat % 2 ^ s.cfg.sw

/-- The values on `sample_in[0..N-1]`; "each CYCLE reads each port exactly once" (R40). -/
def samples (s : State) : List Nat := (List.range s.cfg.n).map s.sampleAt

/-- The ports carry fresh values at the next CYCLE. -/
def consumeSamples (s : State) : State := { s with sampleIn := s.sampleIn.tail, sampleDraws := s.sampleDraws + 1 }

end State

end Sys2Proof.Machine
end

