-- ==== Sys2Proof/Machine/Operands.lean ====
section
/-! DEFINITION. The operand forms (30_encoding.md R82): checks 3 to 5 of 60_exceptions.md R223, the values READ can
select (45_control_port.md R202), and the shape shared by every command, check and then effect. -/

namespace Sys2Proof.Machine

/-- Check 4 of R223: `IDX >= N` is code 3. -/
def indexError (c : Config) (i : Byte) : Option CmdError :=
  if i.toNat < c.n then none else some .badIndex

/-- Check 5 of R223: a sample `IMM >= 2^SW` is code 5. -/
def sampleError (c : Config) (s : Half) : Option CmdError :=
  if s.toNat < 2 ^ c.sw then none else some .badOperand

/-- READ of a global selector with IDX != 0 is code 2 (check 3 of R223). -/
def globalIndexError (i : Byte) : Option CmdError :=
  if i = 0#8 then none else some .rsvdField

/-- Checks 3 and 4 of R223 for READ. -/
def readError (c : Config) (sel : Selector) (i : Byte) : Option CmdError :=
  match sel with
  | .reserved => some .badSel
  | .msgNext => globalIndexError i
  | .ctrl => globalIndexError i
  | .status => globalIndexError i
  | .nbits => globalIndexError i
  | .nrows => globalIndexError i
  | .state => indexError c i
  | .sens => indexError c i
  | .ssh => indexError c i
  | .tgt => indexError c i
  | .clutch => indexError c i
  | .hoff => indexError c i
  | .trig => indexError c i
  | .untrig => indexError c i
  | .spf => indexError c i
  | .total => indexError c i

/-- Checks 4 and 5 of R223 for PROCESS, in that order. -/
def processError (c : Config) (i : Byte) (s : Half) : Option CmdError :=
  (indexError c i).or (sampleError c s)

/-- A command whose checks give `err`: rejected with that code and nothing of its effect, or its effect. -/
def checked (err : Option CmdError) (effect : State → State) (s : State) : Host.Outcome State Fault Refusal :=
  match err with
  | some e => .next (s.reject e)
  | none => .next (effect s)

/-- The encoding of BitState (10_state.md R21). -/
def bitStateCode : BitState → Word
  | .uninitialized => 0
  | .seeking => 1
  | .settled => 2

/-- The encoding of SensorState (10_state.md R22). -/
def sensorCode : SensorState → Word
  | .untriggered => 0
  | .triggered => 1

/-- One bit of a register, zero-extended to 32 bits. -/
def boolWord (b : Bool) : Word := if b then 1 else 0

/-- `zext_32(value(sel, i))` (45_control_port.md R202). READ rejects the reserved selector before it reads. -/
def readValue (sel : Selector) (i : Nat) (s : State) : Word :=
  match sel with
  | .state => bitStateCode (s.reg i).state
  | .sens => sensorCode (s.reg i).sens
  | .ssh => (s.reg i).ssh.reg.setWidth 32
  | .tgt => (s.reg i).tgt.reg.setWidth 32
  | .clutch => boolWord (s.reg i).clutch
  | .msgNext => s.msgNext.setWidth 32
  | .ctrl => ctrlRead s.ctrl
  | .status => statusRead s.status
  | .hoff => BitVec.ofNat 32 (s.cfg.bit i).hoff.steps
  | .trig => BitVec.ofNat 32 (s.cfg.bit i).trig
  | .untrig => BitVec.ofNat 32 (s.cfg.bit i).untrig
  | .spf => BitVec.ofNat 32 (s.cfg.bit i).spf.steps
  | .total => BitVec.ofNat 32 (s.cfg.bit i).total
  | .nbits => BitVec.ofNat 32 s.cfg.n
  | .nrows => BitVec.ofNat 32 s.cfg.m
  | .reserved => 0

end Sys2Proof.Machine
end

