-- ==== Sys2Proof/Machine/ControlPort.lean ====
section
/-! DEFINITION. The control-port commands NOP, READ and WRCTL (45_control_port.md). -/

namespace Sys2Proof.Machine

/-- NOP (R200). -/
def execNop (s : State) : Host.Outcome State Fault Refusal :=
  .next (s.respond 0)

/-- READ sel, i (R202). -/
def execRead (sel : Selector) (i : Byte) (s : State) : Host.Outcome State Fault Refusal :=
  checked (readError s.cfg sel i) (fun t => t.respond (readValue sel i.toNat t)) s

/-- The effect of WRCTL v: `CTRL.RUN <- v`, then `RSP <- zext_32(CTRL)` (R204). -/
def writeControl (v : Bool) (s : State) : State :=
  let written : State := { s with ctrl := ctrlWithRun s.ctrl v }
  written.respond (ctrlRead written.ctrl)

/-- WRCTL v (R204). -/
def execWrctl (v : Bool) (s : State) : Host.Outcome State Fault Refusal :=
  .next (writeControl v s)

end Sys2Proof.Machine
end

