-- ==== Sys2Proof/Machine/Arith.lean ====
section
/-! DEFINITION. The modular step-count arithmetic engine (41_position_arith.md R121 to R126). Every sum and product is
formed exactly on naturals before the one reduction (R127). -/

namespace Sys2Proof.Machine

/-- `pos_mod(x, T) = x mod T`, "the only way a natural becomes a position" (R121). -/
def posMod (x T : Nat) : StepPos := ⟨BitVec.ofNat 16 (x % T)⟩

/-- `pos_add(p, d, T) = (p + d) mod T` (R122). -/
def posAdd (p : StepPos) (d : StepDelta) (T : Nat) : StepPos := posMod (p.val + d.steps) T

/-- `delta_mul(d, k) = d * k`, exact (R123). -/
def deltaMul (d : StepDelta) (k : Nat) : StepDelta := ⟨d.steps * k⟩

/-- `pos_eq(p, q)`: two positions of the same bit are equal (R124). -/
def posEq (p q : StepPos) : Bool := p == q

/-- `pos_inc(p, T) = pos_add(p, 1, T)`, the single-step advance (R125). -/
def posInc (p : StepPos) (T : Nat) : StepPos := posAdd p ⟨1⟩ T

/-- `target_for(i, k) = pos_mod(HOFF[i] + delta_mul(SPF[i], k), TOTAL[i])` (R126). -/
def targetFor (b : BitConfig) (k : Nat) : StepPos := posMod (b.hoff.steps + (deltaMul b.spf k).steps) b.total

/-- HOFF[i] written to TGT[i] unreduced, "already below TOTAL[i]" (R128, 43_bit_controller.md R155). -/
def homeOffsetPos (b : BitConfig) : StepPos := ⟨BitVec.ofNat 16 b.hoff.steps⟩

end Sys2Proof.Machine
end

