-- ==== Sys2Proof/Machine/Lookup.lean ====
section
/-! DEFINITION. The symbol table lookup (40_symbol_lookup.md R111, R113). -/

namespace Sys2Proof.Machine

/-- `position_of(b)`: the smallest ordinal at which the symbol ROM holds `b`, or 0 where it holds it nowhere (R111). -/
def positionOf (c : Config) (b : Byte) : Nat :=
  ((List.range nsym).find? fun k => memRead c .sym k == b).getD 0

/-- LOOKUP b (R113). -/
def execLookup (b : Byte) (s : State) : Host.Outcome State Fault Refusal :=
  .next (s.respond (BitVec.ofNat 32 (positionOf s.cfg b)))

end Sys2Proof.Machine
end

