-- ==== Sys2Proof/Machine/BitController.lean ====
section
/-! DEFINITION. The sensor debouncer (42_sensor_debounce.md) and the Bit Controller (43_bit_controller.md): `process`,
`set_target`, and the commands PROCESS and SETTGT. `process` and `set_target` are functions of one bit's constants and
registers, because they "read and write only bit `i`'s entry and constants, plus the symbol ROM" (10_state.md R28). -/

namespace Sys2Proof.Machine

/-- `debounce(prev, s, trig, untrig)` (42_sensor_debounce.md R140; 90_conflicts.md C5). -/
def debounce (prev : SensorState) (sample trig untrig : Nat) : SensorState :=
  if sample ≥ trig then .triggered
  else if sample ≤ untrig then .untriggered
  else prev

/-- A home edge: Untriggered before, Triggered after (42_sensor_debounce.md R142). -/
def homeEdge (prev cur : SensorState) : Bool :=
  prev == .untriggered && cur == .triggered

/-- What a home edge does: SSH to 0, and on the first one TGT to HOFF and STATE to Seeking (43_bit_controller.md R154,
R155). -/
def atHome (c : BitConfig) (r : BitRegs) : BitRegs :=
  match r.state with
  | .uninitialized => { r with ssh := .home, tgt := homeOffsetPos c, state := .seeking }
  | .seeking => { r with ssh := .home }
  | .settled => { r with ssh := .home }

/-- Steps 1 and 2 of `process`: SENS, then the home edge (R153). -/
def sense (c : BitConfig) (r : BitRegs) (sample : Nat) : BitRegs :=
  let cur := debounce r.sens sample c.trig c.untrig
  if homeEdge r.sens cur then atHome c { r with sens := cur } else { r with sens := cur }

/-- The arrival test, step 4 of `process` (R157). -/
def seek (c : BitConfig) (r : BitRegs) : BitRegs × Bool :=
  if posEq r.ssh r.tgt then ({ r with state := .settled }, false)
  else ({ r with state := .seeking, ssh := posInc r.ssh c.total }, true)

/-- Steps 3 and 4 of `process`: while Uninitialized the need is true and nothing moves (R156); else the arrival test. -/
def decideStep (c : BitConfig) (r : BitRegs) : BitRegs × Bool :=
  match r.state with
  | .uninitialized => (r, true)
  | .seeking => seek c r
  | .settled => seek c r

/-- `process(i, s)`: the new registers of the bit, and the need (R153). It does not write CLUTCH (R150). -/
def processBit (c : BitConfig) (r : BitRegs) (sample : Nat) : BitRegs × Bool :=
  decideStep c (sense c r sample)

/-- `set_target(i, b)`: it writes only TGT (R159). -/
def setTargetBit (c : Config) (bc : BitConfig) (r : BitRegs) (b : Byte) : BitRegs :=
  { r with tgt := targetFor bc (positionOf c b) }

/-- The effect of PROCESS i, s (R158). -/
def processCommand (i sample : Nat) (s : State) : State :=
  let p := processBit (s.cfg.bit i) (s.reg i) sample
  ((s.setReg i p.1).setClutch i p.2).respond (boolWord p.2)

/-- PROCESS i, s (R158). -/
def execProcess (i : Byte) (smp : Half) (s : State) : Host.Outcome State Fault Refusal :=
  checked (processError s.cfg i smp) (processCommand i.toNat smp.toNat) s

/-- The effect of SETTGT i, b (R160). -/
def setTargetCommand (i : Nat) (b : Byte) (s : State) : State :=
  let r := setTargetBit s.cfg (s.cfg.bit i) (s.reg i) b
  (s.setReg i r).respond (r.tgt.reg.setWidth 32)

/-- SETTGT i, b (R160). -/
def execSettgt (i : Byte) (b : Byte) (s : State) : Host.Outcome State Fault Refusal :=
  checked (indexError s.cfg i) (setTargetCommand i.toNat b) s

end Sys2Proof.Machine
end

