-- ==== Sys2Proof/Machine/Coordinator.lean ====
section
/-! DEFINITION. The Shaft Coordinator (44_coordinator.md): the control cycle, the message advance, and the commands
CYCLE, ADVANCE and PULSE. Each loop over the bits is one pass over the three lists of constants, registers and
inputs, since no bit's update reads another's registers (R181, 10_state.md R28). -/

namespace Sys2Proof.Machine

/-- One result a bit, from its constants, its registers and its own input. -/
def forEachBit {α β : Type} (f : BitConfig → BitRegs → α → β) (cs : List BitConfig) (rs : List BitRegs)
    (xs : List α) : List β :=
  List.zipWith (fun p x => f p.1 p.2 x) (cs.zip rs) xs

/-- The row `MSG_NEXT` of the message ROM, one byte a bit, in increasing column (20_memory.md R61). -/
def nextRow (s : State) : List Byte :=
  (List.range s.cfg.n).map fun c => memRead s.cfg .msg (s.msgNext.toNat * s.cfg.n + c)

/-- `advance()` but for the row it returns, which is MSG_NEXT before it (R187). -/
def advance (s : State) : State :=
  { s with
    bits := forEachBit (setTargetBit s.cfg) s.cfg.bits s.bits (nextRow s)
    msgNext := BitVec.ofNat 16 ((s.msgNext.toNat + 1) % s.cfg.m) }

/-- Step 1 of a cycle: every bit's new registers and need (R181). -/
def cycleUpdates (s : State) : List (BitRegs × Bool) :=
  forEachBit processBit s.cfg.bits s.bits s.samples

/-- `need[0..N-1]` of the cycle that starts in this state. -/
def cycleNeeds (s : State) : List Bool := (cycleUpdates s).map (·.2)

/-- `all_idle`: no bit needs a step (R185). -/
def allIdle (needs : List Bool) : Bool := needs.all (!·)

/-- Steps 1 to 3 of a cycle: the samples are read and every bit updated, the clutches written together, one pulse
emitted (R181 to R184). -/
def cyclePulse (s : State) : State :=
  let updated : State := { s with bits := (cycleUpdates s).map (·.1) }
  (updated.consumeSamples.setClutches (cycleNeeds s)).emitPulse

/-- STATUS.IDLE, and on an all-idle cycle the settle delay and the advance (R185, R186). -/
def cycleSettle (idle : Bool) (s : State) : State :=
  let s' : State := { s with status := statusWithIdle s.status idle }
  if idle then advance (s'.wait s.cfg.settleDelay) else s'

/-- A control cycle but for the host's response (R186). -/
def cycleBody (s : State) : State :=
  cycleSettle (allIdle (cycleNeeds s)) (cyclePulse s)

/-- A CYCLE that the sequencer issues: it does not write RSP (R186, 10_state.md R33). -/
def sequencerCycle (s : State) : State := cycleBody s

/-- CYCLE issued by the host (R186). -/
def execCycle (s : State) : Host.Outcome State Fault Refusal :=
  .next ((cycleBody s).respond (State.packBits (cycleNeeds s)))

/-- ADVANCE (R188). -/
def execAdvance (s : State) : Host.Outcome State Fault Refusal :=
  .next ((advance s).respond (s.msgNext.setWidth 32))

/-- PULSE (R189). -/
def execPulse (s : State) : Host.Outcome State Fault Refusal :=
  .next (s.emitPulse.respond (State.packBits s.clutchLevels))

end Sys2Proof.Machine
end

