-- ==== Sys2Proof/Machine/Dispatch.lean ====
section
/-! DEFINITION. The one match from an instruction to its meaning. -/

namespace Sys2Proof.Machine

/-- A host command on a state, checks 3 to 5 of 60_exceptions.md R223 included. -/
def exec (i : Instr) (s : State) : Host.Outcome State Fault Refusal :=
  match i with
  | .nop => Sys2Proof.Machine.execNop s
  | .cycle => Sys2Proof.Machine.execCycle s
  | .process i' smp => Sys2Proof.Machine.execProcess i' smp s
  | .settgt i' b => Sys2Proof.Machine.execSettgt i' b s
  | .lookup b => Sys2Proof.Machine.execLookup b s
  | .advance => Sys2Proof.Machine.execAdvance s
  | .pulse => Sys2Proof.Machine.execPulse s
  | .read sel i' => Sys2Proof.Machine.execRead sel i' s
  | .wrctl v => Sys2Proof.Machine.execWrctl v s

end Sys2Proof.Machine
end

