-- ==== Sys2Proof/Machine/Legality.lean ====
section
/-! DEFINITION. Legal configurations (00_scope.md R13 with R6 to R12, and 40_symbol_lookup.md R110). -/

namespace Sys2Proof

/-- Byte `b` stands at ordinal `k` and at no smaller ordinal (40_symbol_lookup.md R110). -/
abbrev FirstAt (symtab : List Byte) (k : Nat) (b : Byte) : Prop :=
  symtab[k]? = some b ∧ b ∉ symtab.take k

/-- The constraints on SYMTAB: 55 bytes, and the four entries the source gives, each a first occurrence (R110). -/
abbrev SymtabLegal (symtab : List Byte) : Prop :=
  symtab.length = nsym ∧ FirstAt symtab 0 0x20#8 ∧ FirstAt symtab 1 0x41#8 ∧ FirstAt symtab 8 0x48#8 ∧
    FirstAt symtab 53 0x0A#8

/-- The constraints on one bit's constants (00_scope.md R8). -/
abbrev BitConfig.Legal (sw : Nat) (b : BitConfig) : Prop :=
  1 ≤ b.spf.steps ∧ b.total ≤ 2 ^ 16 ∧ b.hoff.steps < b.total ∧ b.untrig < b.trig ∧ b.trig ≤ 2 ^ sw - 1

/-- A legal configuration (00_scope.md R13). `SETTLE_DELAY >= 0` (R12) holds of every natural. -/
abbrev Config.Legal (c : Config) : Prop :=
  (1 ≤ c.n ∧ c.n ≤ 256) ∧ (1 ≤ c.sw ∧ c.sw ≤ 16) ∧ (1 ≤ c.m ∧ c.m ≤ 2 ^ 16) ∧ 0 < c.pulseWidth ∧
    SymtabLegal c.symtab ∧ (∀ b ∈ c.bits, b.Legal c.sw) ∧ ∀ row ∈ c.msgs, row.length = c.n

end Sys2Proof
end

