-- ==== Sys2Proof/Machine/Sequencer.lean ====
section
/-! DEFINITION. Operation boundaries (44_coordinator.md R190, R191) and the reset input (70_reset_and_hazards.md R250):
which operation runs next. -/

namespace Sys2Proof.Machine

namespace State

/-- What the input pins carry at the coming boundary: the script's next entry, or a free value past its end
(log entry 2). -/
def boundaryInput (s : State) : HostInput := s.hostIn.headD (Config.freeHostInput s.hostDraws)

/-- The boundary is reached: its pins are read, and the outputs of the previous operation are over. -/
def openBoundary (s : State) : State := { s with hostIn := s.hostIn.tail, hostDraws := s.hostDraws + 1, out := [] }

/-- `rst`: every register takes its reset value; the configuration is unchanged (R250, R251). What the environment will
put on the input pins is not the SFC's state and stays. -/
def applyReset (s : State) : State :=
  { State.resetWith s.cfg with
    hostIn := s.hostIn
    hostDraws := s.hostDraws
    sampleIn := s.sampleIn
    sampleDraws := s.sampleDraws
    out := [.reset] }

/-- The host presents word `w` at the coming boundary, with `rst` low. -/
def presentWord (w : Word) (s : State) : State :=
  { s with hostIn := { rst := false, cmdValid := true, cmd := w } :: s.hostIn.tail }

end State

/-- A host command runs: decoded and executed, or rejected (30_encoding.md R85). -/
def runWord (w : Word) (s : State) : Host.Outcome State Fault Refusal :=
  match decode w with
  | .ok i => exec i s
  | .error e => .next (s.reject e)

/-- Without a host command the sequencer's CYCLE runs if RUN = 1; "otherwise the SFC waits for a command" (R191,
log entry 6). -/
def runSequencer (s : State) : State :=
  if ctrlRun s.ctrl then sequencerCycle s else s

/-- The operation of one boundary: reset overrides everything (60_exceptions.md R225), then the host's command, then
the sequencer (R191). -/
def runBoundary (inp : HostInput) (s : State) : Host.Outcome State Fault Refusal :=
  if inp.rst then .next s.applyReset
  else if inp.cmdValid then runWord inp.cmd s
  else .next (runSequencer s)

/-- One operation of an SFC with a legal configuration; an illegal one is refused (00_scope.md R13). -/
def boundaryStep (s : State) : Host.Outcome State Fault Refusal :=
  if s.cfg.Legal then runBoundary s.boundaryInput s.openBoundary else .refused .illegalConfiguration

end Sys2Proof.Machine
end

