-- ==== Sys2Proof/Machine/Step.lean ====
section
/-! DEFINITION. The step function: one operation, from one operation boundary to the next (00_scope.md R16,
44_coordinator.md R191). -/

namespace Sys2Proof.Machine

/-- One operation of the SFC. -/
def step (s : State) : Host.Outcome State Fault Refusal := boundaryStep s

/-- The state in which the host presents a table row's word at the coming boundary. A program is a sequence of commands
that the host presents from outside (log entry 2). -/
def State.withFetchWord (s : State) (nbits w : Nat) : State := s.presentWord (tableWord nbits w)

end Sys2Proof.Machine
end

