-- ==== Sys2Proof/WellFormed.lean ====
section
/-! DEFINITION. When a decoded operation passes the operand checks of 30_encoding.md R82 on an SFC of a given
configuration. It is written from R82 alone; the machine's own check, which also names the error, is
Machine/Operands.lean's, and Laws/Operands.lean proves the two agree. -/

namespace Sys2Proof

/-- Whether a selector names one register or constant for each bit; `none` for the reserved one (R202's "scope"). -/
def Selector.perBit : Selector → Option Bool
  | .state | .sens | .ssh | .tgt | .clutch => some true
  | .hoff | .trig | .untrig | .spf | .total => some true
  | .msgNext | .ctrl | .status | .nbits | .nrows => some false
  | .reserved => none

/-- R82: a per-bit operation needs `i < N`; PROCESS needs `s < 2^SW`; READ needs a selector other than 15, and
`IDX = 0` for a global one. Every other operand is in range by its type. -/
def Instr.wellFormed (c : Config) : Instr → Bool
  | .nop | .cycle | .advance | .pulse => true
  | .process i s => decide (i.toNat < c.n) && decide (s.toNat < 2 ^ c.sw)
  | .settgt i _ => decide (i.toNat < c.n)
  | .lookup _ | .wrctl _ => true
  | .read sel i =>
    match sel.perBit with
    | some true => decide (i.toNat < c.n)
    | some false => decide (i = 0#8)
    | none => false

end Sys2Proof
end

