-- ==== Sys2Proof/Safety.lean ====
section
/-! DEFINITION. The terms the statements use: the invariant of the SFC, the rejection code of a word as
60_exceptions.md R223 orders the checks, and the shape of a state after a command. -/

namespace Sys2Proof.Machine

namespace State

/-- The register file has one entry for each of the N bits (10_state.md R20). -/
abbrev Shaped (s : State) : Prop := s.bits.length = s.cfg.n

/-- `SSH[i] < TOTAL[i]` and `TGT[i] < TOTAL[i]` for every bit (10_state.md R27). -/
abbrev PositionsInRange (s : State) : Prop :=
  ∀ i, i < s.cfg.n → (s.reg i).ssh.val < (s.cfg.bit i).total ∧ (s.reg i).tgt.val < (s.cfg.bit i).total

/-- Reserved bits of CTRL and STATUS are 0 (10_state.md R31, R32). -/
abbrev ReservedBitsZero (s : State) : Prop := s.ctrl &&& 0xFFFFFFFE#32 = 0#32 ∧ s.status &&& 0xFFFFFE0E#32 = 0#32

/-- ERRCODE is "0 while ERR = 0" (10_state.md R32), and else one of the codes 1 to 5 (60_exceptions.md R221). -/
abbrev ErrorRecordValid (s : State) : Prop :=
  if statusErr s.status then 1 ≤ (statusErrCode s.status).toNat ∧ (statusErrCode s.status).toNat ≤ 5
  else statusErrCode s.status = 0#4

/-- SSH still holds its reset value 0 while a bit is Uninitialized (45_control_port.md R202, corner cases). -/
abbrev UnhomedAtZero (s : State) : Prop :=
  ∀ i, i < s.cfg.n → (s.reg i).state = .uninitialized → (s.reg i).ssh.val = 0

/-- The invariant of the SFC at operation boundaries. -/
structure Inv (s : State) : Prop where
  /-- the configuration is legal (00_scope.md R13) -/
  legal     : s.cfg.Legal
  /-- R20 -/
  shaped    : s.Shaped
  /-- R27 -/
  positions : s.PositionsInRange
  /-- MSG_NEXT "lies in `[0, M)`" (R30) -/
  row       : s.msgNext.toNat < s.cfg.m
  /-- R31, R32 -/
  reserved  : s.ReservedBitsZero
  /-- R32, R221 -/
  errors    : s.ErrorRecordValid
  /-- R202, corner cases -/
  unhomed   : s.UnhomedAtZero
  /-- `step` is low except during a pulse (R42) -/
  stepLow   : s.stepOut = false

end State

/-- Mask and match of the nine rows of 30_encoding.md R84 that select an operation. -/
def opcodeRows : List (Word × Word) :=
  [(0xFFFFFFFF#32, 0x00000000#32), (0xFFFFFFFF#32, 0x10000000#32), (0xFF000000#32, 0x20000000#32),
    (0xFF00FF00#32, 0x30000000#32), (0xFFFFFF00#32, 0x40000000#32), (0xFFFFFFFF#32, 0x50000000#32),
    (0xFFFFFFFF#32, 0x60000000#32), (0xF000FFFF#32, 0x70000000#32), (0xFFFFFFFE#32, 0x80000000#32)]

/-- The fields of a word that must be 0 for its OP; "for READ, IMM only" (30_encoding.md R84; 60_exceptions.md R223
check 2). -/
def mustBeZero : Nat → Word
  | 2 => 0x0F000000#32
  | 3 => 0x0F00FF00#32
  | 4 => 0x0FFFFF00#32
  | 7 => 0x0000FFFF#32
  | 8 => 0x0FFFFFFE#32
  | _ => 0x0FFFFFFF#32

/-- SEL of a global register or constant: 5, 6, 7, 13, 14 (30_encoding.md R82). -/
def globalSel (sel : Nat) : Bool := sel == 5 || sel == 6 || sel == 7 || sel == 13 || sel == 14

/-- The code a word is rejected with on an SFC of configuration `c`: the first of the five checks of
60_exceptions.md R223 that fails, on the word's own bits. -/
def rejectionCode (c : Config) (w : Word) : Option (BitVec 4) :=
  let op := (w.extractLsb' 28 4).toNat
  let sel := (w.extractLsb' 24 4).toNat
  let idx := (w.extractLsb' 16 8).toNat
  let imm := (w.extractLsb' 0 16).toNat
  if 9 ≤ op then some 1
  else if w &&& mustBeZero op ≠ 0 then some 2
  else if op = 7 ∧ sel = 15 then some 4
  else if op = 7 ∧ globalSel sel ∧ idx ≠ 0 then some 2
  else if (op = 2 ∨ op = 3 ∨ (op = 7 ∧ globalSel sel = false)) ∧ c.n ≤ idx then some 3
  else if op = 2 ∧ 2 ^ c.sw ≤ imm then some 5
  else none

/-- The state after a command that writes only RSP: `cmd_done` pulses, nothing else changes. -/
def afterResponse (s : State) (v : Word) : State := { s with rsp := v, out := s.out ++ [.cmdDone] }

/-- The state after a command that writes the registers of bit `i` other than CLUTCH, and RSP. -/
def afterBitWrite (s : State) (i : Nat) (r : BitRegs) (v : Word) : State :=
  afterResponse { s with bits := s.bits.set i r } v

/-- The state after PROCESS has left bit `i` with registers `r` and the given need: CLUTCH[i] and RSP hold the need,
the clutch outputs show the latches, and no other register changes (43_bit_controller.md R158). -/
def afterProcess (s : State) (i : Nat) (r : BitRegs) (need : Bool) : State :=
  { s with
    bits := s.bits.set i { r with clutch := need }
    rsp := if need then 1 else 0
    out := s.out ++ [.clutchEn ((s.bits.set i { r with clutch := need }).map (·.clutch)), .cmdDone] }

/-- A sample makes a home edge: SENS was Untriggered and the sample reaches the trigger threshold
(42_sensor_debounce.md R140, R142). -/
abbrev EdgeSample (c : BitConfig) (r : BitRegs) (sample : Nat) : Prop := r.sens = .untriggered ∧ c.trig ≤ sample

/-- The output events of one step pulse, held for `width` (44_coordinator.md R183). -/
def pulseEvents (width : Nat) : List OutEvent := [.step true, .wait width, .step false]

end Sys2Proof.Machine
end

