-- ==== Sys2Proof/Certificates/Slice0/Obligations.lean ====
section
/-! DEFINITION. The statements for the provers, one `def Obligations.<Name> : Prop` each, listed in
OBLIGATIONS.json. They quantify over every state, so over every configuration and every input the pins can carry. -/

open Sys2Proof Sys2Proof.Machine

/-! ### Encoding -/

/-- Decoding an encoded operation gives it back, with every operand at every value of its field (30_encoding.md R81,
R82, R84, R89). -/
def Obligations.DecodeOfEncodeIsIdentity : Prop :=
  ∀ i : Instr, decode (encode i) = .ok i

/-- A word the decoder accepts is the encoding of the operation it reads: no bit of a word is dropped (R84, R85). -/
def Obligations.AcceptedWordIsItsEncoding : Prop :=
  ∀ (w : Word) (i : Instr), decode w = .ok i → encode i = w

/-- The opcode map of 30_encoding.md R84 as the decoder reads it, row by row: it reads an operation from a word exactly
when `(word & mask) == match` of that operation's row, and then with the operands in their fields (R81, R82) and no
others; it gives code 1 exactly for OP 0x9 to 0xF, and code 2 exactly for a word whose OP is 0x0 to 0x8 and that no row
matches. That the decoder makes only checks 1 and 2 of 60_exceptions.md R223 is the model's choice, log entry 10: a word
that a row matches can still be rejected by checks 3 to 5, with code 2 too (0x75010000, READ MSGNEXT with IDX 1), and
RejectedCommandHasExactlyTheseEffects states all five checks. -/
def Obligations.WordSelectsOperationByMaskAndMatch : Prop :=
  ∀ w : Word,
    (decode w = .ok .nop ↔ w &&& 0xFFFFFFFF#32 = 0x00000000#32) ∧
    (decode w = .ok .cycle ↔ w &&& 0xFFFFFFFF#32 = 0x10000000#32) ∧
    (∀ i smp, decode w = .ok (.process i smp) ↔
      w &&& 0xFF000000#32 = 0x20000000#32 ∧ i = w.extractLsb' 16 8 ∧ smp = w.extractLsb' 0 16) ∧
    (∀ i b, decode w = .ok (.settgt i b) ↔
      w &&& 0xFF00FF00#32 = 0x30000000#32 ∧ i = w.extractLsb' 16 8 ∧ b = w.extractLsb' 0 8) ∧
    (∀ b, decode w = .ok (.lookup b) ↔ w &&& 0xFFFFFF00#32 = 0x40000000#32 ∧ b = w.extractLsb' 0 8) ∧
    (decode w = .ok .advance ↔ w &&& 0xFFFFFFFF#32 = 0x50000000#32) ∧
    (decode w = .ok .pulse ↔ w &&& 0xFFFFFFFF#32 = 0x60000000#32) ∧
    (∀ sel i, decode w = .ok (.read sel i) ↔
      w &&& 0xF000FFFF#32 = 0x70000000#32 ∧ selectorCode sel = w.extractLsb' 24 4 ∧ i = w.extractLsb' 16 8) ∧
    (∀ v, decode w = .ok (.wrctl v) ↔ w &&& 0xFFFFFFFE#32 = 0x80000000#32 ∧ v = w.getLsbD 0) ∧
    (decode w = .error .illegalOp ↔ 9 ≤ (w.extractLsb' 28 4).toNat) ∧
    (decode w = .error .rsvdField ↔ (w.extractLsb' 28 4).toNat ≤ 8 ∧ ∀ row ∈ opcodeRows, w &&& row.1 ≠ row.2)

/-- Words written out from the encodings of 30_encoding.md R89 and 95_test_vectors.md decode to what they stand for. -/
def Obligations.WrittenOutWordsDecode : Prop :=
  decode 0x00000000#32 = .ok .nop ∧ decode 0x10000000#32 = .ok .cycle ∧
  decode 0x20000BB8#32 = .ok (.process 0 3000) ∧ decode 0x30000041#32 = .ok (.settgt 0 0x41) ∧
  decode 0x40000048#32 = .ok (.lookup 0x48) ∧ decode 0x50000000#32 = .ok .advance ∧
  decode 0x60000000#32 = .ok .pulse ∧ decode 0x73010000#32 = .ok (.read .tgt 1) ∧
  decode 0x80000001#32 = .ok (.wrctl true)

/-! ### Rejection of a command -/

/-- 60_exceptions.md R222 and R223: a word some check rejects, with the code of the first check that fails, changes
ERRCODE if no command was rejected before, sets ERR, answers all ones, and changes nothing else. R223's example:
`0x2F00_FFFF` gives code 2, not code 5. -/
def Obligations.RejectedCommandHasExactlyTheseEffects : Prop :=
  (∀ (s : State) (w : Word) (code : BitVec 4), rejectionCode s.cfg w = some code →
    ∃ st : Word,
      runWord w s = .next (afterResponse { s with status := st } 0xFFFFFFFF#32) ∧
      statusErr st = true ∧
      statusErrCode st = (if statusErr s.status then statusErrCode s.status else code) ∧
      ∀ k, k ≠ 0 → ¬ (4 ≤ k ∧ k < 8) → st.getLsbD k = s.status.getLsbD k) ∧
  ∀ c : Config, rejectionCode c 0x2F00FFFF#32 = some 2

/-- 30_encoding.md R85: a word no check rejects selects an operation whose operand checks pass, and that operation
runs. -/
def Obligations.UnrejectedWordSelectsWellFormedOperation : Prop :=
  ∀ (s : State) (w : Word),
    rejectionCode s.cfg w = none ↔ ∃ i, decode w = .ok i ∧ i.wellFormed s.cfg = true ∧ runWord w s = exec i s

/-- ERR and ERRCODE stay set until reset, and no command clears them (60_exceptions.md R222; 10_state.md R32). -/
def Obligations.ErrorRecordIsSticky : Prop :=
  ∀ s t : State, step s = .next t → s.boundaryInput.rst = false → statusErr s.status = true →
    statusErr t.status = true ∧ statusErrCode t.status = statusErrCode s.status

/-! ### Operation boundaries and reset -/

/-- When the host presents a word at the boundary and it decodes, step is the execution of that instruction, on the
state in which the pins are read and the outputs of the previous operation are over (44_coordinator.md R191). -/
def Obligations.StepRunsDecodedCommand : Prop :=
  ∀ (s : State) (i : Instr), s.cfg.Legal → s.boundaryInput.rst = false → s.boundaryInput.cmdValid = true →
    decode s.boundaryInput.cmd = .ok i → step s = exec i s.openBoundary

/-- A presented word whose OP or must-be-zero fields are wrong is rejected at the boundary with that code
(60_exceptions.md R222, R223). -/
def Obligations.StepRejectsUndecodableWord : Prop :=
  ∀ (s : State) (e : CmdError), s.cfg.Legal → s.boundaryInput.rst = false → s.boundaryInput.cmdValid = true →
    decode s.boundaryInput.cmd = .error e →
    step s = .next (afterResponse { s.openBoundary with status := statusRejected s.status (errCode e) } 0xFFFFFFFF#32)

/-- Without a command and with RUN = 1 the sequencer's CYCLE runs: it does what the host's CYCLE does, but for RSP and
`cmd_done` (44_coordinator.md R186, R190, R191; 10_state.md R33). -/
def Obligations.SequencerRunsCycleWithoutResponse : Prop :=
  ∀ s : State, s.cfg.Legal → s.boundaryInput.rst = false → s.boundaryInput.cmdValid = false →
    ctrlRun s.ctrl = true →
    ∃ u : State, exec .cycle s.openBoundary = .next u ∧ u.out = u.out.dropLast ++ [.cmdDone] ∧
      step s = .next { u with rsp := s.rsp, out := u.out.dropLast }

/-- Without a command and with RUN = 0 the SFC waits: no register changes and nothing is output (44_coordinator.md
R190, R191; the waiting step is the model's, log entry 6). -/
def Obligations.HaltedMachineWaits : Prop :=
  ∀ s : State, s.cfg.Legal → s.boundaryInput.rst = false → s.boundaryInput.cmdValid = false →
    ctrlRun s.ctrl = false →
    step s = .next { s with hostIn := s.hostIn.tail, hostDraws := s.hostDraws + 1, out := [] }

/-- While `rst` is asserted every register takes its reset value (70_reset_and_hazards.md R251), whatever the host
presents, the outputs `clutch_en`, `step` and `rsp` are low or 0 and no `cmd_done` pulses (R250), and the configuration
is unchanged. That the step lists no rising `step` is the model's choice, log entry 5: R250 lets `rst` come while a
pulse is in progress, and the outputs of the abandoned operation are not listed. -/
def Obligations.ResetInputGivesResetValues : Prop :=
  ∀ s : State, s.cfg.Legal → s.boundaryInput.rst = true →
    ∃ t : State, step s = .next t ∧ t.cfg = s.cfg ∧ t.bits.length = s.cfg.n ∧
      (∀ i, i < s.cfg.n →
        t.reg i = { state := .uninitialized, sens := s.cfg.sensReset, ssh := ⟨0⟩, tgt := ⟨0⟩, clutch := false }) ∧
      t.msgNext = 0 ∧ t.ctrl = 1 ∧ t.status = 0 ∧ t.rsp = 0 ∧ t.stepOut = false ∧ .cmdDone ∉ t.out ∧ .step true ∉ t.out

/-- The reset state of every configuration holds the reset values of 70_reset_and_hazards.md R251. -/
def Obligations.ResetStateHoldsResetValues : Prop :=
  ∀ c : Config,
    (State.resetWith c).cfg = c ∧
    (∀ i, i < c.n → (State.resetWith c).reg i =
      { state := .uninitialized, sens := c.sensReset, ssh := ⟨0⟩, tgt := ⟨0⟩, clutch := false }) ∧
    (State.resetWith c).msgNext = 0 ∧ (State.resetWith c).ctrl = 1 ∧ (State.resetWith c).status = 0 ∧
    (State.resetWith c).rsp = 0 ∧ (State.resetWith c).stepOut = false

/-- An SFC with an illegal configuration takes no step (00_scope.md R13; that step refuses it is log entry 7). -/
def Obligations.IllegalConfigurationIsRefused : Prop :=
  ∀ s : State, ¬ s.cfg.Legal → step s = .refused .illegalConfiguration

/-- Every step of a legally configured SFC answers a next state: the control logic "never fails, faults or stops", and a
rejected command is a next state too (60_exceptions.md R220, R226). Two things here are the model's choice: an SFC that
waits for a command takes a step that changes no register (log entry 6), and an operation is one completed step, its
completion in finite time being R270's assumption (log entry 13). -/
def Obligations.EveryOperationCompletes : Prop :=
  ∀ s : State, s.cfg.Legal → ∃ t, step s = .next t

/-! ### Invariants -/

/-- The reset state of every legal configuration meets the invariant (10_state.md R27 "and after reset"), the one of
`State.reset` included (its configuration is the model's choice, log entry 1). -/
def Obligations.ResetMeetsInvariant : Prop :=
  (∀ c : Config, c.Legal → (State.resetWith c).Inv) ∧ State.reset.Inv

/-- Every operation keeps the invariant: positions in range (10_state.md R27, 41_position_arith.md R128), MSG_NEXT below
M (R30), reserved bits 0 (R31, R32), the error record valid (R32, R221), SSH 0 before homing (R202), `step` low (R42). -/
def Obligations.StepKeepsInvariant : Prop :=
  ∀ s t : State, s.Inv → step s = .next t → t.Inv

/-- Once STATE leaves Uninitialized it never returns to it, except by reset (10_state.md R21, 43_bit_controller.md
R156). -/
def Obligations.HomedBitStaysHomed : Prop :=
  ∀ s t : State, s.Inv → step s = .next t → s.boundaryInput.rst = false →
    ∀ i, i < s.cfg.n → (s.reg i).state ≠ .uninitialized → (t.reg i).state ≠ .uninitialized

/-- No operation and no reset writes either ROM or any other part of the configuration (20_memory.md R62, 10_state.md
R45). -/
def Obligations.ConfigurationNeverChanges : Prop :=
  ∀ s t : State, step s = .next t → t.cfg = s.cfg

/-- Which command writes which register (the "Writers" of 10_state.md R21 to R25, R30 to R32): STATE, SENS, SSH and
CLUTCH only PROCESS and CYCLE; TGT also SETTGT and ADVANCE; MSG_NEXT only CYCLE and ADVANCE; CTRL only WRCTL;
STATUS.IDLE only CYCLE. -/
def Obligations.RegistersAreWrittenOnlyByTheirWriters : Prop :=
  ∀ (i : Instr) (s t : State), s.Shaped → exec i s = .next t →
    t.bits.length = s.bits.length ∧
    ((∀ k smp, i ≠ .process k smp) → i ≠ .cycle → ∀ j, j < s.cfg.n →
      (t.reg j).state = (s.reg j).state ∧ (t.reg j).sens = (s.reg j).sens ∧ (t.reg j).ssh = (s.reg j).ssh ∧
      (t.reg j).clutch = (s.reg j).clutch ∧
      ((∀ k b, i ≠ .settgt k b) → i ≠ .advance → (t.reg j).tgt = (s.reg j).tgt)) ∧
    (i ≠ .cycle → i ≠ .advance → t.msgNext = s.msgNext) ∧
    ((∀ v, i ≠ .wrctl v) → t.ctrl = s.ctrl) ∧
    (i ≠ .cycle → statusIdle t.status = statusIdle s.status)

/-- Every host command, rejected or not, ends with one `cmd_done`, its last output (10_state.md R33, R43). -/
def Obligations.EveryCommandEndsWithOneCmdDone : Prop :=
  ∀ (w : Word) (s : State),
    ∃ (t : State) (evs : List OutEvent), runWord w s = .next t ∧ t.out = s.out ++ evs ++ [.cmdDone] ∧ .cmdDone ∉ evs

/-! ### The position engine -/

/-- 41_position_arith.md R121 to R125 for every modulus a register can hold: the results are exact remainders. -/
def Obligations.PositionEngineIsExact : Prop :=
  ∀ (T : Nat), 55 ≤ T → T ≤ 2 ^ 16 →
    (∀ x, (posMod x T).val = x % T) ∧
    (∀ (p : StepPos) (d : StepDelta), p.val < T → (posAdd p d T).val = (p.val + d.steps) % T) ∧
    (∀ (d : StepDelta) (k : Nat), (deltaMul d k).steps = d.steps * k) ∧
    (∀ p q : StepPos, posEq p q = true ↔ p.val = q.val) ∧
    (∀ p : StepPos, p.val < T → (posInc p T).val = if p.val = T - 1 then 0 else p.val + 1)

/-- 41_position_arith.md R126: `target_for`, its value at ordinal 0, when the sum wraps, and the source's worked
example. -/
def Obligations.TargetForIsHomeOffsetPlusOrdinalFlaps : Prop :=
  (∀ (sw : Nat) (b : BitConfig), b.Legal sw →
    (∀ k, (targetFor b k).val = (b.hoff.steps + b.spf.steps * k) % b.total) ∧
    (targetFor b 0).val = b.hoff.steps ∧
    (∀ k, k ≤ 54 → (b.total ≤ b.hoff.steps + b.spf.steps * k ↔ (b.total - 1 - b.hoff.steps) / b.spf.steps < k))) ∧
  (targetFor ⟨⟨58⟩, ⟨348⟩, 3000, 1000⟩ 49).val = 0 ∧ (targetFor ⟨⟨58⟩, ⟨348⟩, 3000, 1000⟩ 53).val = 232

/-- Every sum `target_for` forms is below `2T`, so one subtraction reduces it (an inference that the spec marks as its own, in
41_position_arith.md R127: "`x mod T` equals `x` if `x < T`, and `x - T` otherwise"). -/
def Obligations.OneSubtractionReducesEverySum : Prop :=
  ∀ (sw : Nat) (b : BitConfig) (k : Nat), b.Legal sw → k ≤ 54 →
    (deltaMul b.spf k).steps < b.total ∧ b.hoff.steps + (deltaMul b.spf k).steps < 2 * b.total ∧
    (targetFor b k).val = (if b.hoff.steps + b.spf.steps * k < b.total then b.hoff.steps + b.spf.steps * k
      else b.hoff.steps + b.spf.steps * k - b.total)

/-! ### Symbol lookup -/

/-- LOOKUP answers the smallest ordinal whose entry is the byte, or 0 where no entry is, and changes nothing else
(40_symbol_lookup.md R111, R113). -/
def Obligations.LookupAnswersFirstOrdinal : Prop :=
  ∀ (s : State) (b : Byte), s.cfg.symtab.length = 55 →
    ∃ k : Nat, k ≤ 54 ∧ exec (.lookup b) s = .next (afterResponse s (BitVec.ofNat 32 k)) ∧
      ((s.cfg.symtab[k]? = some b ∧ ∀ j, j < k → s.cfg.symtab[j]? ≠ some b) ∨ (b ∉ s.cfg.symtab ∧ k = 0))

/-- The four symbols the source gives stand at their ordinals on every legal SFC (40_symbol_lookup.md R110, R111;
95_test_vectors.md E1, V1). -/
def Obligations.SourceSymbolsStandAtTheirOrdinals : Prop :=
  ∀ s : State, s.cfg.Legal →
    exec (.lookup 0x20) s = .next (afterResponse s 0) ∧ exec (.lookup 0x41) s = .next (afterResponse s 1) ∧
    exec (.lookup 0x48) s = .next (afterResponse s 8) ∧ exec (.lookup 0x0A) s = .next (afterResponse s 53)

/-! ### The debouncer and the Bit Controller -/

/-- 42_sensor_debounce.md R140 and R142: at or above TRIG is Triggered, at or below UNTRIG is Untriggered, strictly
between keeps the state; the only edge is Untriggered to Triggered. -/
def Obligations.DebouncerHasHysteresis : Prop :=
  ∀ (prev : SensorState) (smp trig untrig : Nat), untrig < trig →
    (trig ≤ smp → debounce prev smp trig untrig = .triggered) ∧
    (smp ≤ untrig → debounce prev smp trig untrig = .untriggered) ∧
    (untrig < smp → smp < trig → debounce prev smp trig untrig = prev) ∧
    (homeEdge prev (debounce prev smp trig untrig) = true ↔ prev = .untriggered ∧ trig ≤ smp)

/-- PROCESS on a bit that is Uninitialized, with a sample that is no home edge, answers 1 and changes only SENS and the
clutch (43_bit_controller.md R156, R158). -/
def Obligations.ProcessKeepsTurningBeforeHoming : Prop :=
  ∀ (s : State) (i : Byte) (smp : Half), s.cfg.Legal → s.Shaped → i.toNat < s.cfg.n → smp.toNat < 2 ^ s.cfg.sw →
    (s.reg i.toNat).state = .uninitialized → ¬ EdgeSample (s.cfg.bit i.toNat) (s.reg i.toNat) smp.toNat →
    exec (.process i smp) s = .next (afterProcess s i.toNat
      { s.reg i.toNat with
        sens := debounce (s.reg i.toNat).sens smp.toNat (s.cfg.bit i.toNat).trig (s.cfg.bit i.toNat).untrig } true)

/-- The first home edge: TGT is HOFF, whatever a SETTGT had written; with HOFF > 0 the bit is Seeking at SSH 1 and needs
a step, with HOFF = 0 it is Settled at SSH 0 (43_bit_controller.md R153, R155; 90_conflicts.md C1, C3). -/
def Obligations.FirstHomeEdgeTargetsHomeOffset : Prop :=
  ∀ (s : State) (i : Byte) (smp : Half), s.cfg.Legal → s.Shaped → i.toNat < s.cfg.n → smp.toNat < 2 ^ s.cfg.sw →
    (s.reg i.toNat).state = .uninitialized → EdgeSample (s.cfg.bit i.toNat) (s.reg i.toNat) smp.toNat →
    ∃ p : StepPos, p.val = (s.cfg.bit i.toNat).hoff.steps ∧
      exec (.process i smp) s = .next (
        if p.val = 0 then
          afterProcess s i.toNat
            { s.reg i.toNat with sens := .triggered, tgt := p, ssh := ⟨0⟩, state := .settled } false
        else
          afterProcess s i.toNat
            { s.reg i.toNat with sens := .triggered, tgt := p, ssh := ⟨1⟩, state := .seeking } true)

/-- A home edge while Seeking or Settled sets SSH to 0, leaves TGT, and step 4 then runs (43_bit_controller.md R154 and
R157; the spec draws this inference itself in R165). -/
def Obligations.LaterHomeEdgeResynchronises : Prop :=
  ∀ (s : State) (i : Byte) (smp : Half), s.cfg.Legal → s.Shaped → i.toNat < s.cfg.n → smp.toNat < 2 ^ s.cfg.sw →
    (s.reg i.toNat).state ≠ .uninitialized → EdgeSample (s.cfg.bit i.toNat) (s.reg i.toNat) smp.toNat →
    exec (.process i smp) s = .next (
      if (s.reg i.toNat).tgt.val = 0 then
        afterProcess s i.toNat { s.reg i.toNat with sens := .triggered, ssh := ⟨0⟩, state := .settled } false
      else
        afterProcess s i.toNat { s.reg i.toNat with sens := .triggered, ssh := ⟨1⟩, state := .seeking } true)

/-- The arrival test of a homed bit without a home edge: equal positions settle it, unequal ones advance SSH by one
step modulo TOTAL (43_bit_controller.md R157). -/
def Obligations.HomedBitSeeksUntilArrival : Prop :=
  ∀ (s : State) (i : Byte) (smp : Half), s.Inv → i.toNat < s.cfg.n → smp.toNat < 2 ^ s.cfg.sw →
    (s.reg i.toNat).state ≠ .uninitialized → ¬ EdgeSample (s.cfg.bit i.toNat) (s.reg i.toNat) smp.toNat →
    ∃ p : StepPos,
      p.val = (if (s.reg i.toNat).ssh.val = (s.cfg.bit i.toNat).total - 1 then 0 else (s.reg i.toNat).ssh.val + 1) ∧
      exec (.process i smp) s = .next (
        if (s.reg i.toNat).ssh.val = (s.reg i.toNat).tgt.val then
          afterProcess s i.toNat
            { s.reg i.toNat with
              sens := debounce (s.reg i.toNat).sens smp.toNat (s.cfg.bit i.toNat).trig (s.cfg.bit i.toNat).untrig
              state := .settled } false
        else
          afterProcess s i.toNat
            { s.reg i.toNat with
              sens := debounce (s.reg i.toNat).sens smp.toNat (s.cfg.bit i.toNat).trig (s.cfg.bit i.toNat).untrig
              ssh := p
              state := .seeking } true)

/-- Without home edges and retargeting, PROCESS answers 1 exactly `d = (TGT[i] - SSH[i]) mod TOTAL[i]` times and then 0,
leaving the bit Settled; `d <= TOTAL[i] - 1` (43_bit_controller.md R157, 41_position_arith.md R125; the spec draws this
inference itself in R163). `u k` is the state before call `k`. -/
def Obligations.BitSettlesAfterExactlyItsDistance : Prop :=
  ∀ (u : Nat → State) (smp : Nat → Half) (i : Byte) (d : Nat), (u 0).Inv → i.toNat < (u 0).cfg.n →
    d = (((u 0).reg i.toNat).tgt.val + ((u 0).cfg.bit i.toNat).total - ((u 0).reg i.toNat).ssh.val)
      % ((u 0).cfg.bit i.toNat).total →
    ((u 0).reg i.toNat).state ≠ .uninitialized →
    (∀ k, k ≤ d → (smp k).toNat < 2 ^ (u 0).cfg.sw ∧
      ¬ EdgeSample ((u 0).cfg.bit i.toNat) ((u k).reg i.toNat) (smp k).toNat ∧
      exec (.process i (smp k)) (u k) = .next (u (k + 1))) →
    d ≤ ((u 0).cfg.bit i.toNat).total - 1 ∧
    (∀ k, k < d → (u (k + 1)).rsp = 1) ∧ (u (d + 1)).rsp = 0 ∧ ((u (d + 1)).reg i.toNat).state = .settled

/-- Counting the edge call, a first homing answers 1 exactly HOFF times and then 0 (43_bit_controller.md R153, R155; the
spec draws this inference itself in R164). `u k` is the state before call `k`; call 0 is the edge call. -/
def Obligations.FirstHomingTravelsHomeOffset : Prop :=
  ∀ (u : Nat → State) (smp : Nat → Half) (i : Byte), (u 0).Inv → i.toNat < (u 0).cfg.n →
    ((u 0).reg i.toNat).state = .uninitialized →
    EdgeSample ((u 0).cfg.bit i.toNat) ((u 0).reg i.toNat) (smp 0).toNat →
    (∀ k, k ≤ ((u 0).cfg.bit i.toNat).hoff.steps → (smp k).toNat < 2 ^ (u 0).cfg.sw ∧
      (1 ≤ k → ¬ EdgeSample ((u 0).cfg.bit i.toNat) ((u k).reg i.toNat) (smp k).toNat) ∧
      exec (.process i (smp k)) (u k) = .next (u (k + 1))) →
    (∀ k, k < ((u 0).cfg.bit i.toNat).hoff.steps → (u (k + 1)).rsp = 1) ∧
    (u (((u 0).cfg.bit i.toNat).hoff.steps + 1)).rsp = 0 ∧
    ((u (((u 0).cfg.bit i.toNat).hoff.steps + 1)).reg i.toNat).state = .settled

/-- What PROCESS leaves in bit `i` and answers depends on bit `i`'s registers alone, and no other bit changes
(10_state.md R28; 43_bit_controller.md R150). -/
def Obligations.BitsDoNotInterfere : Prop :=
  ∀ (s s' t t' : State) (i : Byte) (smp : Half), s.cfg = s'.cfg → s.Shaped → s'.Shaped → i.toNat < s.cfg.n →
    smp.toNat < 2 ^ s.cfg.sw → s.reg i.toNat = s'.reg i.toNat →
    exec (.process i smp) s = .next t → exec (.process i smp) s' = .next t' →
    t.reg i.toNat = t'.reg i.toNat ∧ t.rsp = t'.rsp ∧ ∀ j, j ≠ i.toNat → t.reg j = s.reg j ∧ t'.reg j = s'.reg j

/-- SETTGT writes `TGT[i] <- target_for(i, position_of(b))` and RSP, and nothing else (43_bit_controller.md R159, R160;
41_position_arith.md R126). -/
def Obligations.SetTargetWritesOnlyTheTarget : Prop :=
  ∀ (s : State) (i b : Byte), s.cfg.Legal → i.toNat < s.cfg.n →
    ∃ p : StepPos,
      p.val = ((s.cfg.bit i.toNat).hoff.steps + (s.cfg.bit i.toNat).spf.steps * positionOf s.cfg b)
        % (s.cfg.bit i.toNat).total ∧
      exec (.settgt i b) s = .next (afterBitWrite s i.toNat { s.reg i.toNat with tgt := p } (BitVec.ofNat 32 p.val))

/-- Of two SETTGTs of one bit with no `process` between them, the last write wins (43_bit_controller.md R162). -/
def Obligations.LastSetTargetWins : Prop :=
  ∀ (s t u v : State) (i b b' : Byte), s.Shaped → i.toNat < s.cfg.n →
    exec (.settgt i b) s = .next t → exec (.settgt i b') t = .next u → exec (.settgt i b') s = .next v →
    u = { v with out := u.out }

/-! ### The coordinator -/

/-- Byte `(r, c)` of the message ROM is at address `r*N + c` (20_memory.md R61), and ordinal `k` of the symbol ROM at
address `k` (R60). -/
def Obligations.RomBytesStandAtTheirAddresses : Prop :=
  ∀ c : Config, c.Legal →
    (∀ r col, r < c.m → col < c.n → (c.msgs[r]?.bind (·[col]?)) = some (memRead c .msg (r * c.n + col))) ∧
    (∀ k, k ≤ 54 → c.symtab[k]? = some (memRead c .sym k))

/-- ADVANCE loads row MSG_NEXT into every target, moves MSG_NEXT to the next row modulo M, answers the row loaded, and
changes nothing else (44_coordinator.md R187, R188). -/
def Obligations.AdvanceLoadsNextRow : Prop :=
  ∀ s : State, s.Inv →
    ∃ t : State, exec .advance s = .next t ∧
      t = afterResponse { s with bits := t.bits, msgNext := t.msgNext } (BitVec.ofNat 32 s.msgNext.toNat) ∧
      t.msgNext.toNat = (s.msgNext.toNat + 1) % s.cfg.m ∧ t.bits.length = s.bits.length ∧
      ∀ c, c < s.cfg.n → ∃ b, (s.cfg.msgs[s.msgNext.toNat]?.bind (·[c]?)) = some b ∧
        t.reg c = { s.reg c with tgt := targetFor (s.cfg.bit c) (positionOf s.cfg b) }

/-- PULSE emits one pulse, answers the clutches, and changes no register (44_coordinator.md R183, R189). -/
def Obligations.PulseEmitsOnePulseAndAnswersClutches : Prop :=
  ∀ s : State, s.Shaped →
    ∃ v : Word, exec .pulse s = .next
        { s with rsp := v, stepOut := false, out := s.out ++ pulseEvents s.cfg.pulseWidth ++ [.cmdDone] } ∧
      ∀ k, k < 32 → v.getLsbD k = (decide (k < s.cfg.n) && (s.reg k).clutch)

/-- The value a port carries is a sample: below `2^SW` (10_state.md R40; 00_scope.md R9). -/
def Obligations.SamplesFitTheirPorts : Prop :=
  ∀ (s : State) (i : Nat), s.sampleAt i < 2 ^ s.cfg.sw

/-- A CYCLE in which some bit needs a step: every bit is updated with its port's sample, all clutches are written
together before the one pulse, IDLE is 0, and no message advance happens (44_coordinator.md R181 to R186; 20_memory.md
R71). -/
def Obligations.BusyCycleUpdatesClutchesThenPulses : Prop :=
  ∀ s : State, s.Inv →
    (∃ i, i < s.cfg.n ∧ (processBit (s.cfg.bit i) (s.reg i) (s.sampleAt i)).2 = true) →
    ∃ (t : State) (needs : List Bool), exec .cycle s = .next t ∧ needs.length = s.cfg.n ∧
      (∀ i, i < s.cfg.n → needs[i]? = some (processBit (s.cfg.bit i) (s.reg i) (s.sampleAt i)).2 ∧
        t.reg i = { (processBit (s.cfg.bit i) (s.reg i) (s.sampleAt i)).1 with
          clutch := (processBit (s.cfg.bit i) (s.reg i) (s.sampleAt i)).2 }) ∧
      t = { s with
        bits := t.bits, status := t.status, rsp := t.rsp, sampleIn := s.sampleIn.tail, sampleDraws := s.sampleDraws + 1,
        out := s.out ++ [.clutchEn needs] ++ pulseEvents s.cfg.pulseWidth ++ [.cmdDone] } ∧
      t.bits.length = s.cfg.n ∧
      (∀ k, t.status.getLsbD k = (if k = 8 then false else s.status.getLsbD k)) ∧
      ∀ k, k < 32 → t.rsp.getLsbD k = needs.getD k false

/-- An all-idle CYCLE: the same updates and still one pulse, IDLE is 1, and after the settle delay exactly one advance:
every TGT from the row MSG_NEXT, MSG_NEXT to the next row (44_coordinator.md R184 to R187; the source's coordinator
property, 95_test_vectors.md E8). -/
def Obligations.AllIdleCycleAdvancesTheMessage : Prop :=
  ∀ s : State, s.Inv →
    (∀ i, i < s.cfg.n → (processBit (s.cfg.bit i) (s.reg i) (s.sampleAt i)).2 = false) →
    ∃ t : State, exec .cycle s = .next t ∧
      (∀ i, i < s.cfg.n → ∃ b, (s.cfg.msgs[s.msgNext.toNat]?.bind (·[i]?)) = some b ∧
        t.reg i = { (processBit (s.cfg.bit i) (s.reg i) (s.sampleAt i)).1 with
          clutch := false, tgt := targetFor (s.cfg.bit i) (positionOf s.cfg b) }) ∧
      t.msgNext.toNat = (s.msgNext.toNat + 1) % s.cfg.m ∧
      t = { s with
        bits := t.bits, status := t.status, msgNext := t.msgNext, rsp := 0, sampleIn := s.sampleIn.tail,
        sampleDraws := s.sampleDraws + 1,
        out := s.out ++ [.clutchEn (List.replicate s.cfg.n false)] ++ pulseEvents s.cfg.pulseWidth
          ++ [.wait s.cfg.settleDelay, .cmdDone] } ∧
      t.bits.length = s.cfg.n ∧
      ∀ k, t.status.getLsbD k = (if k = 8 then true else s.status.getLsbD k)

/-- A CYCLE emits exactly one pulse, whatever the needs are (44_coordinator.md R184). -/
def Obligations.CycleEmitsExactlyOnePulse : Prop :=
  ∀ s : State, ∃ (t : State) (evs : List OutEvent), exec .cycle s = .next t ∧ t.out = s.out ++ evs ∧
    evs.count (.step true) = 1 ∧ evs.count (.step false) = 1 ∧ t.stepOut = false

/-- While any bit is Uninitialized and sees no home edge, no cycle is all-idle: its clutch engages, IDLE is 0 and no
message row is loaded (44_coordinator.md R186 and R193, 70_reset_and_hazards.md R263). -/
def Obligations.UnhomedBitHoldsTheMessage : Prop :=
  ∀ (s : State) (i : Nat), s.Inv → i < s.cfg.n → (s.reg i).state = .uninitialized →
    ¬ EdgeSample (s.cfg.bit i) (s.reg i) (s.sampleAt i) →
    ∃ t : State, exec .cycle s = .next t ∧ (t.reg i).clutch = true ∧ (t.reg i).state = .uninitialized ∧
      statusIdle t.status = false ∧ t.msgNext = s.msgNext

/-- On a one-bit SFC, a CYCLE whose bit needs a step leaves the registers that PROCESS with the port's sample and then
PULSE leave, and answers the same (92_eei_decisions.md D18), but for STATUS.IDLE, which only CYCLE writes; the output events are the
same too, but for `cmd_done`. -/
def Obligations.SingleBitCycleIsProcessThenPulse : Prop :=
  ∀ s t u v : State, s.Inv → s.cfg.n = 1 → exec .cycle s = .next t →
    exec (.process 0 (BitVec.ofNat 16 (s.sampleAt 0))) s = .next u → u.rsp = 1 → exec .pulse u = .next v →
    t.bits = v.bits ∧ t.rsp = v.rsp ∧ t.msgNext = v.msgNext ∧ t.ctrl = v.ctrl ∧ t.stepOut = v.stepOut ∧
      (∀ k, k ≠ 8 → t.status.getLsbD k = v.status.getLsbD k) ∧
      t.out.filter (fun e => e != .cmdDone) = s.out.filter (fun e => e != .cmdDone)
        ++ (.clutchEn [true] :: pulseEvents s.cfg.pulseWidth) ∧
      v.out.filter (fun e => e != .cmdDone) = t.out.filter (fun e => e != .cmdDone)

/-! ### The control port -/

/-- NOP answers 0 and has no other effect (45_control_port.md R200; 30_encoding.md R87). -/
def Obligations.NopOnlyAnswersZero : Prop :=
  ∀ s : State, exec .nop s = .next (afterResponse s 0)

/-- READ answers the selected register or constant, zero-extended, and changes nothing else (45_control_port.md R202;
20_memory.md R67). -/
def Obligations.ReadAnswersTheSelectedValue : Prop :=
  ∀ (s : State) (sel : Selector) (i : Byte), s.Inv → (Instr.read sel i).wellFormed s.cfg = true →
    ∃ v : Word, exec (.read sel i) s = .next (afterResponse s v) ∧
      (sel = .state → v.toNat = match (s.reg i.toNat).state with
        | .uninitialized => 0
        | .seeking => 1
        | .settled => 2) ∧
      (sel = .sens → v.toNat = match (s.reg i.toNat).sens with
        | .untriggered => 0
        | .triggered => 1) ∧
      (sel = .ssh → v.toNat = (s.reg i.toNat).ssh.val) ∧
      (sel = .tgt → v.toNat = (s.reg i.toNat).tgt.val) ∧
      (sel = .clutch → v.toNat = (s.reg i.toNat).clutch.toNat) ∧
      (sel = .msgNext → v.toNat = s.msgNext.toNat) ∧
      (sel = .ctrl → v = s.ctrl) ∧
      (sel = .status → v = s.status) ∧
      (sel = .hoff → v.toNat = (s.cfg.bit i.toNat).hoff.steps) ∧
      (sel = .trig → v.toNat = (s.cfg.bit i.toNat).trig) ∧
      (sel = .untrig → v.toNat = (s.cfg.bit i.toNat).untrig) ∧
      (sel = .spf → v.toNat = (s.cfg.bit i.toNat).spf.steps) ∧
      (sel = .total → v.toNat = 55 * (s.cfg.bit i.toNat).spf.steps) ∧
      (sel = .nbits → v.toNat = s.cfg.n) ∧
      (sel = .nrows → v.toNat = s.cfg.m)

/-- WRCTL writes CTRL.RUN, answers CTRL, and changes no other bit and no other register (45_control_port.md R204). -/
def Obligations.WriteControlWritesOnlyRun : Prop :=
  ∀ (s : State) (v : Bool),
    ∃ w : Word, exec (.wrctl v) s = .next (afterResponse { s with ctrl := w } (if v then 1 else 0)) ∧
      ctrlRun w = v ∧ ∀ k, 1 ≤ k → w.getLsbD k = s.ctrl.getLsbD k

/-- HALT (30_encoding.md R90): after the host presents `WRCTL 0`, a following boundary with no command and no reset
changes no register and outputs nothing (44_coordinator.md R190, 45_control_port.md R204). That the boundary is a step
of its own, in which the SFC waits, is the model's choice, log entry 6. -/
def Obligations.WriteControlZeroStopsTheSequencer : Prop :=
  ∀ s t : State, s.cfg.Legal → s.boundaryInput.rst = false → s.boundaryInput.cmdValid = true →
    s.boundaryInput.cmd = 0x80000000#32 → step s = .next t → t.boundaryInput.rst = false →
    t.boundaryInput.cmdValid = false →
    ∃ v : State, step t = .next v ∧ v.bits = s.bits ∧ v.msgNext = s.msgNext ∧ v.status = s.status ∧ v.rsp = 0 ∧
      v.ctrl = t.ctrl ∧ ctrlRun v.ctrl = false ∧ v.out = []
end

