-- ==== Sys2Proof/Laws/Arith.lean ====
section
/-! SUPPORT. The position engine: every result is exact for a modulus that fits the register (41_position_arith.md
R127). -/

namespace Sys2Proof.Machine

/-- A remainder below a modulus of at most `2^16` fits the register. -/
theorem posMod_val {x T : Nat} (h1 : 1 ≤ T) (h2 : T ≤ 2 ^ 16) : (posMod x T).val = x % T := by
  have : x % T < T := Nat.mod_lt _ h1
  simp only [posMod, StepPos.val, BitVec.toNat_ofNat]
  exact Nat.mod_eq_of_lt (by omega)

theorem posMod_lt {x T : Nat} (h1 : 1 ≤ T) (h2 : T ≤ 2 ^ 16) : (posMod x T).val < T := by
  rw [posMod_val h1 h2]; exact Nat.mod_lt _ h1

theorem posEq_iff (p q : StepPos) : posEq p q = true ↔ p.val = q.val := by
  cases p; cases q
  simp [posEq, StepPos.val, BitVec.toNat_inj]

theorem posInc_val {p : StepPos} {T : Nat} (h1 : 1 ≤ T) (h2 : T ≤ 2 ^ 16) : (posInc p T).val = (p.val + 1) % T :=
  posMod_val h1 h2

theorem stepPos_ext {p q : StepPos} (h : p.val = q.val) : p = q := by
  cases p; cases q
  simp only [StepPos.val, BitVec.toNat_inj] at h
  simp [h]

/-- The constraints of a legal bit on its modulus and HomeOffset. -/
theorem legal_total {sw : Nat} {b : BitConfig} (h : b.Legal sw) :
    55 ≤ b.total ∧ b.total ≤ 2 ^ 16 ∧ b.hoff.steps < b.total := by
  obtain ⟨h1, h2, h3, -⟩ := h
  refine ⟨?_, h2, h3⟩
  simp only [BitConfig.total, nsym]; omega

theorem homeOffsetPos_val {sw : Nat} {b : BitConfig} (h : b.Legal sw) : (homeOffsetPos b).val = b.hoff.steps := by
  have := legal_total h
  simp only [homeOffsetPos, StepPos.val, BitVec.toNat_ofNat]
  exact Nat.mod_eq_of_lt (by omega)

theorem targetFor_val {sw : Nat} {b : BitConfig} (h : b.Legal sw) (k : Nat) :
    (targetFor b k).val = (b.hoff.steps + b.spf.steps * k) % b.total := by
  have := legal_total h
  exact posMod_val (by omega) this.2.1

theorem targetFor_lt {sw : Nat} {b : BitConfig} (h : b.Legal sw) (k : Nat) : (targetFor b k).val < b.total := by
  have := legal_total h
  exact posMod_lt (by omega) this.2.1

end Sys2Proof.Machine
end

