-- ==== Sys2Proof/Laws/State.lean ====
section
/-! SUPPORT. One lemma per field per state update, each true by rfl, so that no proof unfolds a record update. -/

namespace Sys2Proof.Machine.State

variable (s : State)

@[simp] theorem emit_cfg (e : OutEvent) : (emit e s).cfg = s.cfg := rfl
@[simp] theorem emit_bits (e : OutEvent) : (emit e s).bits = s.bits := rfl
@[simp] theorem emit_msgNext (e : OutEvent) : (emit e s).msgNext = s.msgNext := rfl
@[simp] theorem emit_ctrl (e : OutEvent) : (emit e s).ctrl = s.ctrl := rfl
@[simp] theorem emit_status (e : OutEvent) : (emit e s).status = s.status := rfl
@[simp] theorem emit_rsp (e : OutEvent) : (emit e s).rsp = s.rsp := rfl
@[simp] theorem emit_stepOut (e : OutEvent) : (emit e s).stepOut = s.stepOut := rfl
@[simp] theorem emit_hostIn (e : OutEvent) : (emit e s).hostIn = s.hostIn := rfl
@[simp] theorem emit_hostDraws (e : OutEvent) : (emit e s).hostDraws = s.hostDraws := rfl
@[simp] theorem emit_sampleIn (e : OutEvent) : (emit e s).sampleIn = s.sampleIn := rfl
@[simp] theorem emit_sampleDraws (e : OutEvent) : (emit e s).sampleDraws = s.sampleDraws := rfl
@[simp] theorem emit_out (e : OutEvent) : (emit e s).out = s.out ++ [e] := rfl

@[simp] theorem wait_cfg (t : Nat) : (wait t s).cfg = s.cfg := rfl
@[simp] theorem wait_bits (t : Nat) : (wait t s).bits = s.bits := rfl
@[simp] theorem wait_msgNext (t : Nat) : (wait t s).msgNext = s.msgNext := rfl
@[simp] theorem wait_ctrl (t : Nat) : (wait t s).ctrl = s.ctrl := rfl
@[simp] theorem wait_status (t : Nat) : (wait t s).status = s.status := rfl
@[simp] theorem wait_rsp (t : Nat) : (wait t s).rsp = s.rsp := rfl
@[simp] theorem wait_stepOut (t : Nat) : (wait t s).stepOut = s.stepOut := rfl
@[simp] theorem wait_hostIn (t : Nat) : (wait t s).hostIn = s.hostIn := rfl
@[simp] theorem wait_hostDraws (t : Nat) : (wait t s).hostDraws = s.hostDraws := rfl
@[simp] theorem wait_sampleIn (t : Nat) : (wait t s).sampleIn = s.sampleIn := rfl
@[simp] theorem wait_sampleDraws (t : Nat) : (wait t s).sampleDraws = s.sampleDraws := rfl
@[simp] theorem wait_out (t : Nat) : (wait t s).out = s.out ++ [.wait t] := rfl

@[simp] theorem driveStep_cfg (level : Bool) : (driveStep level s).cfg = s.cfg := rfl
@[simp] theorem driveStep_bits (level : Bool) : (driveStep level s).bits = s.bits := rfl
@[simp] theorem driveStep_msgNext (level : Bool) : (driveStep level s).msgNext = s.msgNext := rfl
@[simp] theorem driveStep_ctrl (level : Bool) : (driveStep level s).ctrl = s.ctrl := rfl
@[simp] theorem driveStep_status (level : Bool) : (driveStep level s).status = s.status := rfl
@[simp] theorem driveStep_rsp (level : Bool) : (driveStep level s).rsp = s.rsp := rfl
@[simp] theorem driveStep_stepOut (level : Bool) : (driveStep level s).stepOut = level := rfl
@[simp] theorem driveStep_hostIn (level : Bool) : (driveStep level s).hostIn = s.hostIn := rfl
@[simp] theorem driveStep_hostDraws (level : Bool) : (driveStep level s).hostDraws = s.hostDraws := rfl
@[simp] theorem driveStep_sampleIn (level : Bool) : (driveStep level s).sampleIn = s.sampleIn := rfl
@[simp] theorem driveStep_sampleDraws (level : Bool) : (driveStep level s).sampleDraws = s.sampleDraws := rfl
@[simp] theorem driveStep_out (level : Bool) : (driveStep level s).out = s.out ++ [.step level] := rfl

@[simp] theorem emitPulse_cfg : (emitPulse s).cfg = s.cfg := rfl
@[simp] theorem emitPulse_bits : (emitPulse s).bits = s.bits := rfl
@[simp] theorem emitPulse_msgNext : (emitPulse s).msgNext = s.msgNext := rfl
@[simp] theorem emitPulse_ctrl : (emitPulse s).ctrl = s.ctrl := rfl
@[simp] theorem emitPulse_status : (emitPulse s).status = s.status := rfl
@[simp] theorem emitPulse_rsp : (emitPulse s).rsp = s.rsp := rfl
@[simp] theorem emitPulse_stepOut : (emitPulse s).stepOut = false := rfl
@[simp] theorem emitPulse_hostIn : (emitPulse s).hostIn = s.hostIn := rfl
@[simp] theorem emitPulse_hostDraws : (emitPulse s).hostDraws = s.hostDraws := rfl
@[simp] theorem emitPulse_sampleIn : (emitPulse s).sampleIn = s.sampleIn := rfl
@[simp] theorem emitPulse_sampleDraws : (emitPulse s).sampleDraws = s.sampleDraws := rfl
@[simp] theorem emitPulse_out : (emitPulse s).out = s.out ++ [.step true] ++ [.wait s.cfg.pulseWidth] ++ [.step false] := rfl

@[simp] theorem setReg_cfg (i : Nat) (r : BitRegs) : (setReg i r s).cfg = s.cfg := rfl
@[simp] theorem setReg_bits (i : Nat) (r : BitRegs) : (setReg i r s).bits = s.bits.set i r := rfl
@[simp] theorem setReg_msgNext (i : Nat) (r : BitRegs) : (setReg i r s).msgNext = s.msgNext := rfl
@[simp] theorem setReg_ctrl (i : Nat) (r : BitRegs) : (setReg i r s).ctrl = s.ctrl := rfl
@[simp] theorem setReg_status (i : Nat) (r : BitRegs) : (setReg i r s).status = s.status := rfl
@[simp] theorem setReg_rsp (i : Nat) (r : BitRegs) : (setReg i r s).rsp = s.rsp := rfl
@[simp] theorem setReg_stepOut (i : Nat) (r : BitRegs) : (setReg i r s).stepOut = s.stepOut := rfl
@[simp] theorem setReg_hostIn (i : Nat) (r : BitRegs) : (setReg i r s).hostIn = s.hostIn := rfl
@[simp] theorem setReg_hostDraws (i : Nat) (r : BitRegs) : (setReg i r s).hostDraws = s.hostDraws := rfl
@[simp] theorem setReg_sampleIn (i : Nat) (r : BitRegs) : (setReg i r s).sampleIn = s.sampleIn := rfl
@[simp] theorem setReg_sampleDraws (i : Nat) (r : BitRegs) : (setReg i r s).sampleDraws = s.sampleDraws := rfl
@[simp] theorem setReg_out (i : Nat) (r : BitRegs) : (setReg i r s).out = s.out := rfl

@[simp] theorem showClutches_cfg : (showClutches s).cfg = s.cfg := rfl
@[simp] theorem showClutches_bits : (showClutches s).bits = s.bits := rfl
@[simp] theorem showClutches_msgNext : (showClutches s).msgNext = s.msgNext := rfl
@[simp] theorem showClutches_ctrl : (showClutches s).ctrl = s.ctrl := rfl
@[simp] theorem showClutches_status : (showClutches s).status = s.status := rfl
@[simp] theorem showClutches_rsp : (showClutches s).rsp = s.rsp := rfl
@[simp] theorem showClutches_stepOut : (showClutches s).stepOut = s.stepOut := rfl
@[simp] theorem showClutches_hostIn : (showClutches s).hostIn = s.hostIn := rfl
@[simp] theorem showClutches_hostDraws : (showClutches s).hostDraws = s.hostDraws := rfl
@[simp] theorem showClutches_sampleIn : (showClutches s).sampleIn = s.sampleIn := rfl
@[simp] theorem showClutches_sampleDraws : (showClutches s).sampleDraws = s.sampleDraws := rfl
@[simp] theorem showClutches_out : (showClutches s).out = s.out ++ [.clutchEn s.clutchLevels] := rfl

@[simp] theorem setClutch_cfg (i : Nat) (need : Bool) : (setClutch i need s).cfg = s.cfg := rfl
@[simp] theorem setClutch_bits (i : Nat) (need : Bool) : (setClutch i need s).bits = s.bits.set i { s.reg i with clutch := need } := rfl
@[simp] theorem setClutch_msgNext (i : Nat) (need : Bool) : (setClutch i need s).msgNext = s.msgNext := rfl
@[simp] theorem setClutch_ctrl (i : Nat) (need : Bool) : (setClutch i need s).ctrl = s.ctrl := rfl
@[simp] theorem setClutch_status (i : Nat) (need : Bool) : (setClutch i need s).status = s.status := rfl
@[simp] theorem setClutch_rsp (i : Nat) (need : Bool) : (setClutch i need s).rsp = s.rsp := rfl
@[simp] theorem setClutch_stepOut (i : Nat) (need : Bool) : (setClutch i need s).stepOut = s.stepOut := rfl
@[simp] theorem setClutch_hostIn (i : Nat) (need : Bool) : (setClutch i need s).hostIn = s.hostIn := rfl
@[simp] theorem setClutch_hostDraws (i : Nat) (need : Bool) : (setClutch i need s).hostDraws = s.hostDraws := rfl
@[simp] theorem setClutch_sampleIn (i : Nat) (need : Bool) : (setClutch i need s).sampleIn = s.sampleIn := rfl
@[simp] theorem setClutch_sampleDraws (i : Nat) (need : Bool) : (setClutch i need s).sampleDraws = s.sampleDraws := rfl
@[simp] theorem setClutch_out (i : Nat) (need : Bool) : (setClutch i need s).out = s.out ++ [.clutchEn (s.setReg i { s.reg i with clutch := need }).clutchLevels] := rfl

@[simp] theorem setClutches_cfg (needs : List Bool) : (setClutches needs s).cfg = s.cfg := rfl
@[simp] theorem setClutches_bits (needs : List Bool) : (setClutches needs s).bits = List.zipWith (fun r need => { r with clutch := need }) s.bits needs := rfl
@[simp] theorem setClutches_msgNext (needs : List Bool) : (setClutches needs s).msgNext = s.msgNext := rfl
@[simp] theorem setClutches_ctrl (needs : List Bool) : (setClutches needs s).ctrl = s.ctrl := rfl
@[simp] theorem setClutches_status (needs : List Bool) : (setClutches needs s).status = s.status := rfl
@[simp] theorem setClutches_rsp (needs : List Bool) : (setClutches needs s).rsp = s.rsp := rfl
@[simp] theorem setClutches_stepOut (needs : List Bool) : (setClutches needs s).stepOut = s.stepOut := rfl
@[simp] theorem setClutches_hostIn (needs : List Bool) : (setClutches needs s).hostIn = s.hostIn := rfl
@[simp] theorem setClutches_hostDraws (needs : List Bool) : (setClutches needs s).hostDraws = s.hostDraws := rfl
@[simp] theorem setClutches_sampleIn (needs : List Bool) : (setClutches needs s).sampleIn = s.sampleIn := rfl
@[simp] theorem setClutches_sampleDraws (needs : List Bool) : (setClutches needs s).sampleDraws = s.sampleDraws := rfl
@[simp] theorem setClutches_out (needs : List Bool) : (setClutches needs s).out = s.out ++ [.clutchEn ((List.zipWith (fun r need => { r with clutch := need }) s.bits needs).map (·.clutch))] := rfl

@[simp] theorem respond_cfg (v : Word) : (respond v s).cfg = s.cfg := rfl
@[simp] theorem respond_bits (v : Word) : (respond v s).bits = s.bits := rfl
@[simp] theorem respond_msgNext (v : Word) : (respond v s).msgNext = s.msgNext := rfl
@[simp] theorem respond_ctrl (v : Word) : (respond v s).ctrl = s.ctrl := rfl
@[simp] theorem respond_status (v : Word) : (respond v s).status = s.status := rfl
@[simp] theorem respond_rsp (v : Word) : (respond v s).rsp = v := rfl
@[simp] theorem respond_stepOut (v : Word) : (respond v s).stepOut = s.stepOut := rfl
@[simp] theorem respond_hostIn (v : Word) : (respond v s).hostIn = s.hostIn := rfl
@[simp] theorem respond_hostDraws (v : Word) : (respond v s).hostDraws = s.hostDraws := rfl
@[simp] theorem respond_sampleIn (v : Word) : (respond v s).sampleIn = s.sampleIn := rfl
@[simp] theorem respond_sampleDraws (v : Word) : (respond v s).sampleDraws = s.sampleDraws := rfl
@[simp] theorem respond_out (v : Word) : (respond v s).out = s.out ++ [.cmdDone] := rfl

@[simp] theorem reject_cfg (e : CmdError) : (reject e s).cfg = s.cfg := rfl
@[simp] theorem reject_bits (e : CmdError) : (reject e s).bits = s.bits := rfl
@[simp] theorem reject_msgNext (e : CmdError) : (reject e s).msgNext = s.msgNext := rfl
@[simp] theorem reject_ctrl (e : CmdError) : (reject e s).ctrl = s.ctrl := rfl
@[simp] theorem reject_status (e : CmdError) : (reject e s).status = statusRejected s.status (errCode e) := rfl
@[simp] theorem reject_rsp (e : CmdError) : (reject e s).rsp = 0xFFFFFFFF#32 := rfl
@[simp] theorem reject_stepOut (e : CmdError) : (reject e s).stepOut = s.stepOut := rfl
@[simp] theorem reject_hostIn (e : CmdError) : (reject e s).hostIn = s.hostIn := rfl
@[simp] theorem reject_hostDraws (e : CmdError) : (reject e s).hostDraws = s.hostDraws := rfl
@[simp] theorem reject_sampleIn (e : CmdError) : (reject e s).sampleIn = s.sampleIn := rfl
@[simp] theorem reject_sampleDraws (e : CmdError) : (reject e s).sampleDraws = s.sampleDraws := rfl
@[simp] theorem reject_out (e : CmdError) : (reject e s).out = s.out ++ [.cmdDone] := rfl

@[simp] theorem consumeSamples_cfg : (consumeSamples s).cfg = s.cfg := rfl
@[simp] theorem consumeSamples_bits : (consumeSamples s).bits = s.bits := rfl
@[simp] theorem consumeSamples_msgNext : (consumeSamples s).msgNext = s.msgNext := rfl
@[simp] theorem consumeSamples_ctrl : (consumeSamples s).ctrl = s.ctrl := rfl
@[simp] theorem consumeSamples_status : (consumeSamples s).status = s.status := rfl
@[simp] theorem consumeSamples_rsp : (consumeSamples s).rsp = s.rsp := rfl
@[simp] theorem consumeSamples_stepOut : (consumeSamples s).stepOut = s.stepOut := rfl
@[simp] theorem consumeSamples_hostIn : (consumeSamples s).hostIn = s.hostIn := rfl
@[simp] theorem consumeSamples_hostDraws : (consumeSamples s).hostDraws = s.hostDraws := rfl
@[simp] theorem consumeSamples_sampleIn : (consumeSamples s).sampleIn = s.sampleIn.tail := rfl
@[simp] theorem consumeSamples_sampleDraws : (consumeSamples s).sampleDraws = s.sampleDraws + 1 := rfl
@[simp] theorem consumeSamples_out : (consumeSamples s).out = s.out := rfl

@[simp] theorem openBoundary_cfg : (openBoundary s).cfg = s.cfg := rfl
@[simp] theorem openBoundary_bits : (openBoundary s).bits = s.bits := rfl
@[simp] theorem openBoundary_msgNext : (openBoundary s).msgNext = s.msgNext := rfl
@[simp] theorem openBoundary_ctrl : (openBoundary s).ctrl = s.ctrl := rfl
@[simp] theorem openBoundary_status : (openBoundary s).status = s.status := rfl
@[simp] theorem openBoundary_rsp : (openBoundary s).rsp = s.rsp := rfl
@[simp] theorem openBoundary_stepOut : (openBoundary s).stepOut = s.stepOut := rfl
@[simp] theorem openBoundary_hostIn : (openBoundary s).hostIn = s.hostIn.tail := rfl
@[simp] theorem openBoundary_hostDraws : (openBoundary s).hostDraws = s.hostDraws + 1 := rfl
@[simp] theorem openBoundary_sampleIn : (openBoundary s).sampleIn = s.sampleIn := rfl
@[simp] theorem openBoundary_sampleDraws : (openBoundary s).sampleDraws = s.sampleDraws := rfl
@[simp] theorem openBoundary_out : (openBoundary s).out = [] := rfl

@[simp] theorem boundaryInput_presentWord (w : Word) :
    (s.presentWord w).boundaryInput = { rst := false, cmdValid := true, cmd := w } := rfl

theorem openBoundary_presentWord (w : Word) :
    (s.presentWord w).openBoundary = s.openBoundary := rfl

@[simp] theorem applyReset_cfg : s.applyReset.cfg = s.cfg := rfl

@[simp] theorem resetWith_cfg (c : Config) : (resetWith c).cfg = c := rfl

@[simp] theorem resetWith_bits (c : Config) :
    (resetWith c).bits = c.bits.map fun _ => BitRegs.resetWith c.sensReset := rfl

end Sys2Proof.Machine.State
end

