-- ==== Sys2Proof/Laws/Bits.lean ====
section
/-! SUPPORT. The register file: reading a bit after writing one, and passes over all bits. -/

namespace Sys2Proof.Machine

namespace State

theorem reg_congr {s t : State} (h : s.bits = t.bits) (i : Nat) : s.reg i = t.reg i := by
  simp [reg, h]

theorem reg_set_self {s t : State} {i : Nat} {r : BitRegs} (h : t.bits = s.bits.set i r) (hi : i < s.bits.length) :
    t.reg i = r := by
  simp [reg, h, hi]

theorem reg_set_ne {s t : State} {i j : Nat} {r : BitRegs} (h : t.bits = s.bits.set i r) (hij : j ≠ i) :
    t.reg j = s.reg j := by
  simp [reg, h, List.getD_eq_getElem?_getD, List.getElem?_set_ne hij.symm]

theorem getElem?_bits {s : State} {i : Nat} (hi : i < s.bits.length) : s.bits[i]? = some (s.reg i) := by
  simp [reg, hi]

theorem reg_of_getElem? {s : State} {i : Nat} {r : BitRegs} (h : s.bits[i]? = some r) : s.reg i = r := by
  simp [reg, List.getD_eq_getElem?_getD, h]

/-- Writing bit `i` back unchanged changes nothing. -/
theorem set_reg_self (s : State) (i : Nat) : s.bits.set i (s.reg i) = s.bits := by
  apply List.ext_getElem?
  intro j
  by_cases hj : j = i
  · subst hj
    by_cases hi : j < s.bits.length
    · simp [hi, reg]
    · simp [Nat.le_of_not_lt hi]
  · simp [List.getElem?_set_ne (Ne.symm hj)]

end State

theorem getElem?_cfg_bits {c : Config} {i : Nat} (hi : i < c.n) : c.bits[i]? = some (c.bit i) := by
  simp only [Config.n] at hi
  simp [Config.bit, hi]

/-- The constants of a bit of the SFC are among the configuration's. -/
theorem bit_mem {c : Config} {i : Nat} (hi : i < c.n) : c.bit i ∈ c.bits :=
  List.mem_of_getElem? (getElem?_cfg_bits hi)

/-- Every bit has its reset values in the reset state (70_reset_and_hazards.md R251). -/
theorem resetWith_reg {c : Config} {i : Nat} (hi : i < c.n) :
    (State.resetWith c).reg i = BitRegs.resetWith c.sensReset := by
  apply State.reg_of_getElem?
  simp only [Config.n] at hi
  simp [hi, BitRegs.resetWith]

/-- A pass over all bits gives, at bit `i`, the function of bit `i`'s constants, registers and input. -/
theorem forEachBit_getElem? {α β : Type} (f : BitConfig → BitRegs → α → β) {cs : List BitConfig} {rs : List BitRegs}
    {xs : List α} {i : Nat} {c : BitConfig} {r : BitRegs} {x : α} (hc : cs[i]? = some c) (hr : rs[i]? = some r)
    (hx : xs[i]? = some x) : (forEachBit f cs rs xs)[i]? = some (f c r x) := by
  have hz : (cs.zip rs)[i]? = some (c, r) := by simp [List.zip, List.getElem?_zipWith, hc, hr]
  simp [forEachBit, List.getElem?_zipWith, hz, hx]

theorem forEachBit_length {α β : Type} (f : BitConfig → BitRegs → α → β) (cs : List BitConfig) (rs : List BitRegs)
    (xs : List α) : (forEachBit f cs rs xs).length = min (min cs.length rs.length) xs.length := by
  simp [forEachBit]

end Sys2Proof.Machine
end

