-- ==== Sys2Proof/Laws/Lookup.lean ====
section
/-! SUPPORT. `position_of` (40_symbol_lookup.md R111, R112). -/

namespace Sys2Proof.Machine

/-- What `position_of` can answer: the first ordinal that holds the byte, or 0 where none of the 55 does. -/
theorem positionOf_cases (c : Config) (b : Byte) :
    (positionOf c b < nsym ∧ memRead c .sym (positionOf c b) = b ∧
      ∀ j, j < positionOf c b → memRead c .sym j ≠ b) ∨
    (positionOf c b = 0 ∧ ∀ j, j < nsym → memRead c .sym j ≠ b) := by
  unfold positionOf
  cases h : (List.range nsym).find? fun k => memRead c .sym k == b with
  | some k =>
    left
    rw [List.find?_range_eq_some] at h
    obtain ⟨h1, h2, h3⟩ := h
    exact ⟨by simpa using h2, by simpa using h1, fun j hj => by simpa using h3 j hj⟩
  | none =>
    right
    rw [List.find?_eq_none] at h
    exact ⟨rfl, fun j hj => by simpa using h j (by simpa using hj)⟩

theorem positionOf_lt (c : Config) (b : Byte) : positionOf c b < nsym := by
  rcases positionOf_cases c b with ⟨h, -⟩ | ⟨h, -⟩
  · exact h
  · rw [h]; decide

/-- Inside the table a ROM read is the table's entry. -/
theorem memRead_sym {c : Config} {k : Nat} {b : Byte} (h : c.symtab[k]? = some b) : memRead c .sym k = b := by
  simp [memRead, h]

/-- A byte that stands first at ordinal `k` of a legal table is found there. -/
theorem positionOf_firstAt {c : Config} {k : Nat} {b : Byte} (hk : k < nsym) (h : FirstAt c.symtab k b) :
    positionOf c b = k := by
  obtain ⟨hb, hn⟩ := h
  have hlen : k < c.symtab.length := (List.getElem?_eq_some_iff.mp hb).1
  have hat := memRead_sym hb
  have hbefore : ∀ j, j < k → memRead c .sym j ≠ b := by
    intro j hj hjb
    have hj' : j < c.symtab.length := by omega
    rw [memRead_sym (List.getElem?_eq_getElem hj')] at hjb
    exact hn (by rw [List.mem_take_iff_getElem]; exact ⟨j, by omega, hjb⟩)
  rcases positionOf_cases c b with ⟨h1, h2, h3⟩ | ⟨h1, h2⟩
  · rcases Nat.lt_trichotomy (positionOf c b) k with hlt | heq | hgt
    · exact absurd h2 (hbefore _ hlt)
    · exact heq
    · exact absurd hat (h3 _ hgt)
  · exact absurd hat (h2 k hk)

end Sys2Proof.Machine
end

