-- ==== Sys2Proof/Laws/BitController.lean ====
section
/-! SUPPORT. The debouncer and `process`: what one call can do to a bit (43_bit_controller.md R153 to R157). -/

namespace Sys2Proof.Machine

/-- A home edge needs Untriggered before and a sample at or above TRIG (42_sensor_debounce.md R140, R142). -/
theorem homeEdge_debounce_iff {prev : SensorState} {smp trig untrig : Nat} (_h : untrig < trig) :
    homeEdge prev (debounce prev smp trig untrig) = true ↔ prev = .untriggered ∧ trig ≤ smp := by
  cases prev <;> simp [homeEdge, debounce]

theorem debounce_of_trig_le {prev : SensorState} {smp trig untrig : Nat} (h : trig ≤ smp) :
    debounce prev smp trig untrig = .triggered := by
  simp [debounce, h]

/-- With no home edge, steps 1 and 2 write SENS only. -/
theorem sense_no_edge {c : BitConfig} {r : BitRegs} {smp : Nat} (hc : c.untrig < c.trig)
    (h : ¬ (r.sens = .untriggered ∧ c.trig ≤ smp)) :
    sense c r smp = { r with sens := debounce r.sens smp c.trig c.untrig } := by
  have : homeEdge r.sens (debounce r.sens smp c.trig c.untrig) = false := by
    rw [← Bool.not_eq_true, homeEdge_debounce_iff hc]; exact h
  simp [sense, this]

/-- On a home edge, SENS is Triggered and the edge has its effect. -/
theorem sense_edge {c : BitConfig} {r : BitRegs} {smp : Nat} (hc : c.untrig < c.trig)
    (h : r.sens = .untriggered ∧ c.trig ≤ smp) :
    sense c r smp = atHome c { r with sens := .triggered } := by
  have he : homeEdge r.sens (debounce r.sens smp c.trig c.untrig) = true := (homeEdge_debounce_iff hc).mpr h
  rw [debounce_of_trig_le h.2] at he
  simp [sense, debounce_of_trig_le h.2, he]

/-- CLUTCH is not written by `process` (43_bit_controller.md R150). -/
theorem processBit_clutch (c : BitConfig) (r : BitRegs) (smp : Nat) : (processBit c r smp).1.clutch = r.clutch := by
  simp only [processBit, decideStep, seek, sense, atHome]
  repeat' split
  all_goals rfl

/-- A need of `true` or `false` of the arrival test, with what it writes (R157). -/
theorem seek_cases (c : BitConfig) (r : BitRegs) :
    (r.ssh.val = r.tgt.val ∧ seek c r = ({ r with state := .settled }, false)) ∨
    (r.ssh.val ≠ r.tgt.val ∧ seek c r = ({ r with state := .seeking, ssh := posInc r.ssh c.total }, true)) := by
  by_cases h : posEq r.ssh r.tgt = true
  · exact .inl ⟨(posEq_iff _ _).mp h, by simp [seek, h]⟩
  · exact .inr ⟨fun h' => h ((posEq_iff _ _).mpr h'), by simp [seek, h]⟩

/-- Everything one `process` call can do: Uninitialized and no edge; the first edge; a later edge; no edge while homed. -/
theorem processBit_cases {c : BitConfig} (hc : c.untrig < c.trig) (r : BitRegs) (smp : Nat) :
    (r.state = .uninitialized ∧ ¬ (r.sens = .untriggered ∧ c.trig ≤ smp) ∧
      processBit c r smp = ({ r with sens := debounce r.sens smp c.trig c.untrig }, true)) ∨
    (r.state = .uninitialized ∧ (r.sens = .untriggered ∧ c.trig ≤ smp) ∧
      processBit c r smp =
        seek c { r with sens := .triggered, ssh := .home, tgt := homeOffsetPos c, state := .seeking }) ∨
    (r.state ≠ .uninitialized ∧ (r.sens = .untriggered ∧ c.trig ≤ smp) ∧
      processBit c r smp = seek c { r with sens := .triggered, ssh := .home }) ∨
    (r.state ≠ .uninitialized ∧ ¬ (r.sens = .untriggered ∧ c.trig ≤ smp) ∧
      processBit c r smp = seek c { r with sens := debounce r.sens smp c.trig c.untrig }) := by
  rcases r with ⟨st, sens, ssh, tgt, clutch⟩
  by_cases he : sens = .untriggered ∧ c.trig ≤ smp
  · have hs := sense_edge (r := ⟨st, sens, ssh, tgt, clutch⟩) hc he
    cases st with
    | uninitialized => exact .inr (.inl ⟨rfl, he, by simp [processBit, hs, atHome, decideStep]⟩)
    | seeking => exact .inr (.inr (.inl ⟨by simp, he, by simp [processBit, hs, atHome, decideStep]⟩))
    | settled => exact .inr (.inr (.inl ⟨by simp, he, by simp [processBit, hs, atHome, decideStep]⟩))
  · have hs := sense_no_edge (r := ⟨st, sens, ssh, tgt, clutch⟩) hc he
    cases st with
    | uninitialized => exact .inl ⟨rfl, he, by simp [processBit, hs, decideStep]⟩
    | seeking => exact .inr (.inr (.inr ⟨by simp, he, by simp [processBit, hs, decideStep]⟩))
    | settled => exact .inr (.inr (.inr ⟨by simp, he, by simp [processBit, hs, decideStep]⟩))

/-- What every bit of a legal SFC satisfies, and `process` and `set_target` keep (10_state.md R27; 45_control_port.md
R202, corner cases). -/
def BitInv (c : BitConfig) (r : BitRegs) : Prop :=
  r.ssh.val < c.total ∧ r.tgt.val < c.total ∧ (r.state = .uninitialized → r.ssh.val = 0)

theorem seek_keeps {sw : Nat} {c : BitConfig} (hc : c.Legal sw) {r : BitRegs} (hs : r.ssh.val < c.total)
    (ht : r.tgt.val < c.total) : BitInv c (seek c r).1 ∧ (seek c r).1.state ≠ .uninitialized := by
  have hT := legal_total hc
  rcases seek_cases c r with ⟨h, e⟩ | ⟨h, e⟩
  · rw [e]; exact ⟨⟨hs, ht, by simp⟩, by simp⟩
  · rw [e]; exact ⟨⟨posMod_lt (by omega) hT.2.1, ht, by simp⟩, by simp⟩

/-- `process` keeps a bit's invariant, and a homed bit stays homed (R156). -/
theorem processBit_keeps {sw : Nat} {c : BitConfig} (hc : c.Legal sw) {r : BitRegs} (h : BitInv c r) (smp : Nat) :
    BitInv c (processBit c r smp).1 ∧
      (r.state ≠ .uninitialized → (processBit c r smp).1.state ≠ .uninitialized) := by
  have hT := legal_total hc
  have h0 : StepPos.home.val = 0 := rfl
  have hH := homeOffsetPos_val hc
  obtain ⟨hs, ht, hu⟩ := h
  rcases processBit_cases hc.2.2.2.1 r smp with ⟨h1, -, e⟩ | ⟨h1, -, e⟩ | ⟨h1, -, e⟩ | ⟨h1, -, e⟩ <;> rw [e]
  · exact ⟨⟨hs, ht, hu⟩, fun h => absurd h1 h⟩
  · have := seek_keeps hc (r := { r with sens := .triggered, ssh := .home, tgt := homeOffsetPos c, state := .seeking })
      (by simp only [h0]; omega) (by simp only [hH]; omega)
    exact ⟨this.1, fun _ => this.2⟩
  · have := seek_keeps hc (r := { r with sens := .triggered, ssh := .home }) (by simp only [h0]; omega) ht
    exact ⟨this.1, fun _ => this.2⟩
  · have := seek_keeps hc (r := { r with sens := debounce r.sens smp c.trig c.untrig }) hs ht
    exact ⟨this.1, fun _ => this.2⟩

theorem setTargetBit_keeps {sw : Nat} {cfg : Config} {c : BitConfig} (hc : c.Legal sw) {r : BitRegs} (h : BitInv c r)
    (b : Byte) : BitInv c (setTargetBit cfg c r b) :=
  ⟨h.1, targetFor_lt hc _, h.2.2⟩

/-- The registers after PROCESS passed its checks: bit `i`'s, with the clutch at the need; one clutch event, then
`cmd_done`. -/
theorem processCommand_eq {i smp : Nat} {s : State} (hi : i < s.bits.length) :
    processCommand i smp s =
      { s with
        bits := s.bits.set i
          { (processBit (s.cfg.bit i) (s.reg i) smp).1 with clutch := (processBit (s.cfg.bit i) (s.reg i) smp).2 }
        rsp := boolWord (processBit (s.cfg.bit i) (s.reg i) smp).2
        out := s.out ++ [.clutchEn ((s.bits.set i
          { (processBit (s.cfg.bit i) (s.reg i) smp).1 with
            clutch := (processBit (s.cfg.bit i) (s.reg i) smp).2 }).map (·.clutch)), .cmdDone] } := by
  have hr : (s.setReg i (processBit (s.cfg.bit i) (s.reg i) smp).1).reg i = (processBit (s.cfg.bit i) (s.reg i) smp).1 :=
    State.reg_set_self (s := s) rfl hi
  simp only [processCommand, State.setClutch, hr]
  simp [State.respond, State.emit, State.showClutches, State.clutchLevels, State.setReg]

end Sys2Proof.Machine
end

