-- ==== Sys2Proof/Laws/Flags.lean ====
section
/-! SUPPORT. The fields of CTRL and STATUS after each field write, bit by bit. -/

namespace Sys2Proof.Machine

@[simp] theorem ctrlRun_ctrlWithRun (w : Word) (v : Bool) : ctrlRun (ctrlWithRun w v) = v := by
  cases v <;> simp [ctrlRun, ctrlWithRun]

theorem ctrlWithRun_getLsbD (w : Word) (v : Bool) (k : Nat) :
    (ctrlWithRun w v).getLsbD k = if k = 0 then v else w.getLsbD k := by
  by_cases hk : k < 32
  · cases v <;> interval_cases k <;> simp [ctrlWithRun]
  · have h0 : k ≠ 0 := by omega
    simp [h0, BitVec.getLsbD_of_ge _ k (Nat.le_of_not_lt hk)]

@[simp] theorem ctrlRead_ctrlWithRun (w : Word) (v : Bool) : ctrlRead (ctrlWithRun w v) = if v then 1 else 0 := by
  apply BitVec.eq_of_getLsbD_eq
  intro k hk
  cases v <;> interval_cases k <;> simp [ctrlRead, ctrlWithRun]

theorem statusWithIdle_getLsbD (w : Word) (v : Bool) (k : Nat) :
    (statusWithIdle w v).getLsbD k = if k = 8 then v else w.getLsbD k := by
  by_cases hk : k < 32
  · cases v <;> interval_cases k <;> simp [statusWithIdle]
  · have h0 : k ≠ 8 := by omega
    simp [h0, BitVec.getLsbD_of_ge _ k (Nat.le_of_not_lt hk)]

@[simp] theorem statusIdle_statusWithIdle (w : Word) (v : Bool) : statusIdle (statusWithIdle w v) = v := by
  unfold statusIdle; rw [statusWithIdle_getLsbD]; rfl

@[simp] theorem statusErr_statusWithIdle (w : Word) (v : Bool) : statusErr (statusWithIdle w v) = statusErr w := by
  unfold statusErr; rw [statusWithIdle_getLsbD]; rfl

@[simp] theorem statusErrCode_statusWithIdle (w : Word) (v : Bool) :
    statusErrCode (statusWithIdle w v) = statusErrCode w := by
  apply BitVec.eq_of_getLsbD_eq
  intro k hk
  have h8 : 4 + k ≠ 8 := by omega
  simp [statusErrCode, statusWithIdle_getLsbD, h8]

theorem statusSetErr_getLsbD (w : Word) (k : Nat) :
    (statusSetErr w).getLsbD k = (decide (k = 0) || w.getLsbD k) := by
  by_cases hk : k < 32
  · interval_cases k <;> simp [statusSetErr]
  · have h0 : k ≠ 0 := by omega
    simp [h0, BitVec.getLsbD_of_ge _ k (Nat.le_of_not_lt hk)]

/-- ERRCODE is bits 7:4; every other bit is as it was. -/
theorem statusWithErrCode_getLsbD (w : Word) (code : BitVec 4) (k : Nat) :
    (statusWithErrCode w code).getLsbD k = if 4 ≤ k ∧ k < 8 then code.getLsbD (k - 4) else w.getLsbD k := by
  by_cases hk : k < 32
  · interval_cases k <;> simp [statusWithErrCode]
  · have h0 : ¬ (4 ≤ k ∧ k < 8) := by omega
    simp [h0, BitVec.getLsbD_of_ge _ k (Nat.le_of_not_lt hk)]

/-- STATUS after a rejection, bit by bit (60_exceptions.md R222). -/
theorem statusRejected_getLsbD (w : Word) (code : BitVec 4) (k : Nat) :
    (statusRejected w code).getLsbD k =
      if k = 0 then true
      else if 4 ≤ k ∧ k < 8 ∧ statusErr w = false then code.getLsbD (k - 4)
      else w.getLsbD k := by
  by_cases h0 : k = 0
  · simp [statusRejected, statusSetErr_getLsbD, h0]
  · cases he : statusErr w <;> simp [statusRejected, statusSetErr_getLsbD, statusWithErrCode_getLsbD, he, h0]

@[simp] theorem statusErr_statusRejected (w : Word) (code : BitVec 4) : statusErr (statusRejected w code) = true := by
  unfold statusErr; rw [statusRejected_getLsbD]; rfl

theorem statusErrCode_statusRejected (w : Word) (code : BitVec 4) :
    statusErrCode (statusRejected w code) = if statusErr w then statusErrCode w else code := by
  apply BitVec.eq_of_getLsbD_eq
  intro k hk
  cases he : statusErr w <;> simp [statusErrCode, statusRejected_getLsbD, he, hk]
  omega

@[simp] theorem statusIdle_statusRejected (w : Word) (code : BitVec 4) :
    statusIdle (statusRejected w code) = statusIdle w := by
  unfold statusIdle; rw [statusRejected_getLsbD]; rfl

/-! Reserved bits of CTRL and STATUS stay 0 under every field write (10_state.md R31, R32). -/

theorem ctrlWithRun_reserved {w : Word} (v : Bool) (h : w &&& 0xFFFFFFFE#32 = 0#32) :
    ctrlWithRun w v &&& 0xFFFFFFFE#32 = 0#32 := by
  apply BitVec.eq_of_getLsbD_eq
  intro k hk
  have h' := congrArg (fun x : Word => x.getLsbD k) h
  simp only [BitVec.getLsbD_and] at h' ⊢
  rw [ctrlWithRun_getLsbD]
  split
  · subst k; simp
  · exact h'

theorem statusWithIdle_reserved {w : Word} (v : Bool) (h : w &&& 0xFFFFFE0E#32 = 0#32) :
    statusWithIdle w v &&& 0xFFFFFE0E#32 = 0#32 := by
  apply BitVec.eq_of_getLsbD_eq
  intro k hk
  have h' := congrArg (fun x : Word => x.getLsbD k) h
  simp only [BitVec.getLsbD_and] at h' ⊢
  rw [statusWithIdle_getLsbD]
  split
  · subst k; simp
  · exact h'

theorem statusRejected_reserved {w : Word} (code : BitVec 4) (h : w &&& 0xFFFFFE0E#32 = 0#32) :
    statusRejected w code &&& 0xFFFFFE0E#32 = 0#32 := by
  apply BitVec.eq_of_getLsbD_eq
  intro k hk
  have h' := congrArg (fun x : Word => x.getLsbD k) h
  simp only [BitVec.getLsbD_and] at h' ⊢
  rw [statusRejected_getLsbD]
  split
  · subst k; simp
  · split
    · rename_i hh
      obtain ⟨h1, h2, -⟩ := hh
      interval_cases k <;> simp
    · exact h'

/-- A word whose reserved bits are 0 reads as itself. -/
theorem ctrlRead_of_reserved {w : Word} (h : w &&& 0xFFFFFFFE#32 = 0#32) : ctrlRead w = w := by
  apply BitVec.eq_of_getLsbD_eq
  intro k hk
  have h' := congrArg (fun x : Word => x.getLsbD k) h
  simp only [ctrlRead, BitVec.getLsbD_and] at h' ⊢
  interval_cases k <;> simp_all

theorem statusRead_of_reserved {w : Word} (h : w &&& 0xFFFFFE0E#32 = 0#32) : statusRead w = w := by
  apply BitVec.eq_of_getLsbD_eq
  intro k hk
  have h' := congrArg (fun x : Word => x.getLsbD k) h
  simp only [statusRead, BitVec.getLsbD_and] at h' ⊢
  interval_cases k <;> simp_all

end Sys2Proof.Machine
end

