-- ==== Sys2Proof/Laws/Coordinator.lean ====
section
/-! SUPPORT. The control cycle and the advance, field by field and bit by bit (44_coordinator.md R181 to R188). -/

namespace Sys2Proof.Machine

/-! ### The advance -/

theorem nextRow_getElem? (s : State) {i : Nat} (hi : i < s.cfg.n) :
    (nextRow s)[i]? = some (memRead s.cfg .msg (s.msgNext.toNat * s.cfg.n + i)) := by
  simp [nextRow, hi]

theorem nextRow_length (s : State) : (nextRow s).length = s.cfg.n := by
  simp [nextRow]

/-- ADVANCE writes TGT of every bit and nothing else of it (R187). -/
theorem advance_reg {s : State} (hs : s.bits.length = s.cfg.n) {i : Nat} (hi : i < s.cfg.n) :
    (advance s).reg i =
      setTargetBit s.cfg (s.cfg.bit i) (s.reg i) (memRead s.cfg .msg (s.msgNext.toNat * s.cfg.n + i)) :=
  State.reg_of_getElem? <|
    forEachBit_getElem? _ (getElem?_cfg_bits hi) (State.getElem?_bits (hs ▸ hi)) (nextRow_getElem? s hi)

theorem advance_length {s : State} (hs : s.bits.length = s.cfg.n) : (advance s).bits.length = s.cfg.n := by
  have hc : s.cfg.bits.length = s.cfg.n := rfl
  simp [advance, forEachBit_length, nextRow_length, hs, hc]

@[simp] theorem advance_cfg (s : State) : (advance s).cfg = s.cfg := rfl
@[simp] theorem advance_ctrl (s : State) : (advance s).ctrl = s.ctrl := rfl
@[simp] theorem advance_status (s : State) : (advance s).status = s.status := rfl
@[simp] theorem advance_rsp (s : State) : (advance s).rsp = s.rsp := rfl
@[simp] theorem advance_stepOut (s : State) : (advance s).stepOut = s.stepOut := rfl
@[simp] theorem advance_hostIn (s : State) : (advance s).hostIn = s.hostIn := rfl
@[simp] theorem advance_hostDraws (s : State) : (advance s).hostDraws = s.hostDraws := rfl
@[simp] theorem advance_sampleIn (s : State) : (advance s).sampleIn = s.sampleIn := rfl
@[simp] theorem advance_sampleDraws (s : State) : (advance s).sampleDraws = s.sampleDraws := rfl
@[simp] theorem advance_out (s : State) : (advance s).out = s.out := rfl

/-- MSG_NEXT moves to the next row, modulo M (R187, 00_scope.md R11). -/
theorem advance_msgNext {s : State} (h1 : 1 ≤ s.cfg.m) (h2 : s.cfg.m ≤ 2 ^ 16) :
    (advance s).msgNext.toNat = (s.msgNext.toNat + 1) % s.cfg.m := by
  have : (s.msgNext.toNat + 1) % s.cfg.m < s.cfg.m := Nat.mod_lt _ h1
  simp only [advance, BitVec.toNat_ofNat]
  exact Nat.mod_eq_of_lt (by omega)

/-! ### Steps 1 to 3 of a cycle -/

theorem samples_getElem? (s : State) {i : Nat} (hi : i < s.cfg.n) : s.samples[i]? = some (s.sampleAt i) := by
  simp [State.samples, hi]

theorem samples_length (s : State) : s.samples.length = s.cfg.n := by
  simp [State.samples]

/-- Every bit is updated with its own port's sample (R181). -/
theorem cycleUpdates_getElem? {s : State} (hs : s.bits.length = s.cfg.n) {i : Nat} (hi : i < s.cfg.n) :
    (cycleUpdates s)[i]? = some (processBit (s.cfg.bit i) (s.reg i) (s.sampleAt i)) :=
  forEachBit_getElem? _ (getElem?_cfg_bits hi) (State.getElem?_bits (hs ▸ hi)) (samples_getElem? s hi)

theorem cycleUpdates_length {s : State} (hs : s.bits.length = s.cfg.n) : (cycleUpdates s).length = s.cfg.n := by
  have hc : s.cfg.bits.length = s.cfg.n := rfl
  simp [cycleUpdates, forEachBit_length, samples_length, hs, hc]

theorem cycleNeeds_getElem? {s : State} (hs : s.bits.length = s.cfg.n) {i : Nat} (hi : i < s.cfg.n) :
    (cycleNeeds s)[i]? = some (processBit (s.cfg.bit i) (s.reg i) (s.sampleAt i)).2 := by
  simp [cycleNeeds, cycleUpdates_getElem? hs hi]

theorem cycleNeeds_length {s : State} (hs : s.bits.length = s.cfg.n) : (cycleNeeds s).length = s.cfg.n := by
  simp [cycleNeeds, cycleUpdates_length hs]

/-- The register file after the clutch writes: each bit's update, with its clutch at its need (R182). -/
theorem cyclePulse_bits (s : State) :
    (cyclePulse s).bits = (cycleUpdates s).map fun p => { p.1 with clutch := p.2 } := by
  apply List.ext_getElem?
  intro i
  simp only [cyclePulse, State.emitPulse_bits, State.setClutches_bits, State.consumeSamples_bits, cycleNeeds,
    List.getElem?_zipWith, List.getElem?_map]
  cases (cycleUpdates s)[i]? <;> rfl

theorem cyclePulse_reg {s : State} (hs : s.bits.length = s.cfg.n) {i : Nat} (hi : i < s.cfg.n) :
    (cyclePulse s).reg i =
      { (processBit (s.cfg.bit i) (s.reg i) (s.sampleAt i)).1 with
        clutch := (processBit (s.cfg.bit i) (s.reg i) (s.sampleAt i)).2 } := by
  apply State.reg_of_getElem?
  simp [cyclePulse_bits, cycleUpdates_getElem? hs hi]

theorem cyclePulse_length {s : State} (hs : s.bits.length = s.cfg.n) : (cyclePulse s).bits.length = s.cfg.n := by
  simp [cyclePulse_bits, cycleUpdates_length hs]

/-- The outputs of a cycle's first three steps, in order: the clutches together, then one pulse (20_memory.md R71). -/
theorem cyclePulse_out (s : State) :
    (cyclePulse s).out =
      s.out ++ [.clutchEn (cycleNeeds s), .step true, .wait s.cfg.pulseWidth, .step false] := by
  have h : (List.zipWith (fun r need => { r with clutch := need }) ((cycleUpdates s).map (·.1))
      (cycleNeeds s)).map (·.clutch) = cycleNeeds s := by
    apply List.ext_getElem?
    intro i
    simp only [cycleNeeds, List.getElem?_map, List.getElem?_zipWith]
    cases (cycleUpdates s)[i]? <;> rfl
  simp only [cyclePulse, State.emitPulse_out, State.setClutches_out, State.setClutches_cfg, State.consumeSamples_cfg,
    State.consumeSamples_out, State.consumeSamples_bits, h]
  simp

@[simp] theorem cyclePulse_cfg (s : State) : (cyclePulse s).cfg = s.cfg := rfl
@[simp] theorem cyclePulse_msgNext (s : State) : (cyclePulse s).msgNext = s.msgNext := rfl
@[simp] theorem cyclePulse_ctrl (s : State) : (cyclePulse s).ctrl = s.ctrl := rfl
@[simp] theorem cyclePulse_status (s : State) : (cyclePulse s).status = s.status := rfl
@[simp] theorem cyclePulse_rsp (s : State) : (cyclePulse s).rsp = s.rsp := rfl
@[simp] theorem cyclePulse_stepOut (s : State) : (cyclePulse s).stepOut = false := rfl
@[simp] theorem cyclePulse_hostIn (s : State) : (cyclePulse s).hostIn = s.hostIn := rfl
@[simp] theorem cyclePulse_hostDraws (s : State) : (cyclePulse s).hostDraws = s.hostDraws := rfl
@[simp] theorem cyclePulse_sampleIn (s : State) : (cyclePulse s).sampleIn = s.sampleIn.tail := rfl
@[simp] theorem cyclePulse_sampleDraws (s : State) : (cyclePulse s).sampleDraws = s.sampleDraws + 1 := rfl

/-! ### The end of a cycle -/

/-- A cycle either has a bit that needs a step, and ends after the pulse with IDLE 0; or it is all-idle, and ends with
IDLE 1, the settle delay and one advance (R185, R186). -/
theorem cycleBody_cases (s : State) :
    (allIdle (cycleNeeds s) = false ∧
      cycleBody s = { cyclePulse s with status := statusWithIdle s.status false }) ∨
    (allIdle (cycleNeeds s) = true ∧
      cycleBody s =
        advance (State.wait s.cfg.settleDelay { cyclePulse s with status := statusWithIdle s.status true })) := by
  cases h : allIdle (cycleNeeds s) with
  | false => exact .inl ⟨rfl, by simp [cycleBody, cycleSettle, h]⟩
  | true => exact .inr ⟨rfl, by simp [cycleBody, cycleSettle, h]⟩

/-- The registers of bit `i` after a whole cycle: its update with its clutch at its need, and on an all-idle cycle its
new target (R182, R187). -/
theorem cycleBody_reg {s : State} (hs : s.bits.length = s.cfg.n) {i : Nat} (hi : i < s.cfg.n) :
    (cycleBody s).reg i =
      if allIdle (cycleNeeds s) then
        setTargetBit s.cfg (s.cfg.bit i) ((cyclePulse s).reg i)
          (memRead s.cfg .msg (s.msgNext.toNat * s.cfg.n + i))
      else (cyclePulse s).reg i := by
  rcases cycleBody_cases s with ⟨h, e⟩ | ⟨h, e⟩
  · rw [e, h]; rfl
  · rw [e, h]
    exact advance_reg
      (s := State.wait s.cfg.settleDelay { cyclePulse s with status := statusWithIdle s.status true })
      (cyclePulse_length hs) hi

theorem cycleBody_length {s : State} (hs : s.bits.length = s.cfg.n) : (cycleBody s).bits.length = s.cfg.n := by
  rcases cycleBody_cases s with ⟨-, e⟩ | ⟨-, e⟩
  · rw [e]; exact cyclePulse_length hs
  · rw [e]
    exact advance_length
      (s := State.wait s.cfg.settleDelay { cyclePulse s with status := statusWithIdle s.status true })
      (cyclePulse_length hs)

@[simp] theorem cycleBody_cfg (s : State) : (cycleBody s).cfg = s.cfg := by
  rcases cycleBody_cases s with ⟨-, e⟩ | ⟨-, e⟩ <;> rw [e] <;> rfl

@[simp] theorem cycleBody_ctrl (s : State) : (cycleBody s).ctrl = s.ctrl := by
  rcases cycleBody_cases s with ⟨-, e⟩ | ⟨-, e⟩ <;> rw [e] <;> rfl

@[simp] theorem cycleBody_rsp (s : State) : (cycleBody s).rsp = s.rsp := by
  rcases cycleBody_cases s with ⟨-, e⟩ | ⟨-, e⟩ <;> rw [e] <;> rfl

@[simp] theorem cycleBody_stepOut (s : State) : (cycleBody s).stepOut = false := by
  rcases cycleBody_cases s with ⟨-, e⟩ | ⟨-, e⟩ <;> rw [e] <;> rfl

/-- STATUS.IDLE is the all-idle result, and no other bit of STATUS changes (R186). -/
theorem cycleBody_status (s : State) : (cycleBody s).status = statusWithIdle s.status (allIdle (cycleNeeds s)) := by
  rcases cycleBody_cases s with ⟨h, e⟩ | ⟨h, e⟩
  · rw [e, h]
  · rw [e, h]; rfl

theorem allIdle_iff {s : State} (hs : s.bits.length = s.cfg.n) :
    allIdle (cycleNeeds s) = true ↔
      ∀ i, i < s.cfg.n → (processBit (s.cfg.bit i) (s.reg i) (s.sampleAt i)).2 = false := by
  simp only [allIdle, List.all_eq_true, Bool.not_eq_true']
  constructor
  · intro h i hi
    exact h _ (List.mem_of_getElem? (cycleNeeds_getElem? hs hi))
  · intro h x hx
    obtain ⟨i, hi⟩ := List.mem_iff_getElem?.mp hx
    have hlt : i < s.cfg.n := by
      rw [← cycleNeeds_length hs]; exact (List.getElem?_eq_some_iff.mp hi).1
    rw [cycleNeeds_getElem? hs hlt] at hi
    rw [← Option.some.inj hi]; exact h i hlt

/-- RSP's bit `k` is the `k`-th of the packed bits, for `k < 32` (30_encoding.md R91). -/
theorem packBits_getLsbD (bs : List Bool) {k : Nat} (hk : k < 32) :
    (State.packBits bs).getLsbD k = bs.getD k false := by
  simp [State.packBits, hk, BitVec.getLsbD_ofBoolListLE]

end Sys2Proof.Machine
end

