-- ==== Sys2Proof/Laws/Decode.lean ====
section
/-! SUPPORT. The fields of a command word, and the selectors' codes. -/

namespace Sys2Proof

/-- The bits of a word, field by field (30_encoding.md R81). -/
theorem cmd32_getLsbD (o s : BitVec 4) (i : Byte) (m : Half) (k : Nat) :
    (cmd32 o s i m).getLsbD k =
      if k < 16 then m.getLsbD k
      else if k < 24 then i.getLsbD (k - 16)
      else if k < 28 then s.getLsbD (k - 24)
      else o.getLsbD (k - 28) := by
  show BitVec.getLsbD (o ++ s ++ i ++ m) k = _
  simp only [BitVec.getLsbD_append]
  repeat' split
  all_goals first | (exfalso; omega) | rfl

@[simp] theorem opField_cmd32 (o s : BitVec 4) (i : Byte) (m : Half) : opField (cmd32 o s i m) = o := by
  apply BitVec.eq_of_getLsbD_eq
  intro k hk
  rw [opField, BitVec.getLsbD_extractLsb', cmd32_getLsbD]
  repeat' split
  all_goals first | omega | (simp only [hk, decide_true, Bool.true_and]; congr 1; omega)

@[simp] theorem selField_cmd32 (o s : BitVec 4) (i : Byte) (m : Half) : selField (cmd32 o s i m) = s := by
  apply BitVec.eq_of_getLsbD_eq
  intro k hk
  rw [selField, BitVec.getLsbD_extractLsb', cmd32_getLsbD]
  repeat' split
  all_goals first | omega | (simp only [hk, decide_true, Bool.true_and]; congr 1; omega)

@[simp] theorem idxField_cmd32 (o s : BitVec 4) (i : Byte) (m : Half) : idxField (cmd32 o s i m) = i := by
  apply BitVec.eq_of_getLsbD_eq
  intro k hk
  rw [idxField, BitVec.getLsbD_extractLsb', cmd32_getLsbD]
  repeat' split
  all_goals first | omega | (simp only [hk, decide_true, Bool.true_and]; congr 1; omega)

@[simp] theorem immField_cmd32 (o s : BitVec 4) (i : Byte) (m : Half) : immField (cmd32 o s i m) = m := by
  apply BitVec.eq_of_getLsbD_eq
  intro k hk
  rw [immField, BitVec.getLsbD_extractLsb', cmd32_getLsbD]
  repeat' split
  all_goals first | omega | (simp only [hk, decide_true, Bool.true_and]; congr 1; omega)

/-- A word is its four fields. -/
theorem cmd32_fields (w : Word) : cmd32 (opField w) (selField w) (idxField w) (immField w) = w := by
  apply BitVec.eq_of_getLsbD_eq
  intro k hk
  rw [cmd32_getLsbD]
  simp only [opField, selField, idxField, immField, BitVec.getLsbD_extractLsb']
  repeat' split
  all_goals
    rw [decide_eq_true (by omega), Bool.true_and]
    congr 1
    omega

theorem immHigh_eq (w : Word) : immHigh w = (immField w).extractLsb' 8 8 := by
  apply BitVec.eq_of_getLsbD_eq
  intro k hk
  interval_cases k <;> simp [immHigh, immField]

theorem immLow_eq (w : Word) : immLow w = (immField w).extractLsb' 0 8 := by
  apply BitVec.eq_of_getLsbD_eq
  intro k hk
  interval_cases k <;> simp [immLow, immField]

theorem immAboveBit0_eq (w : Word) : immAboveBit0 w = (immField w).extractLsb' 1 15 := by
  apply BitVec.eq_of_getLsbD_eq
  intro k hk
  interval_cases k <;> simp [immAboveBit0, immField]

theorem bit0_eq (w : Word) : w.getLsbD 0 = (immField w).getLsbD 0 := by
  simp [immField]

/-- An IMM whose high byte is 0 is its low byte. -/
theorem imm_of_high_zero {m : Half} (h : m.extractLsb' 8 8 = 0#8) : (m.extractLsb' 0 8).setWidth 16 = m := by
  apply BitVec.eq_of_getLsbD_eq
  intro k hk
  have hb : ∀ j, j < 8 → m.getLsbD (8 + j) = false := by
    intro j hj
    have := congrArg (fun x : BitVec 8 => x.getLsbD j) h
    simpa [hj] using this
  by_cases h8 : k < 8
  · simp [h8, hk]
  · have := hb (k - 8) (by omega)
    rw [show 8 + (k - 8) = k by omega] at this
    simp [h8, this]

/-- An IMM whose bits 15:1 are 0 is its bit 0. -/
theorem imm_of_above_zero {m : Half} (h : m.extractLsb' 1 15 = 0#15) : (if m.getLsbD 0 then 1 else 0 : Half) = m := by
  apply BitVec.eq_of_getLsbD_eq
  intro k hk
  have hb : ∀ j, j < 15 → m.getLsbD (1 + j) = false := by
    intro j hj
    have := congrArg (fun x : BitVec 15 => x.getLsbD j) h
    simpa [hj] using this
  by_cases h0 : k = 0
  · subst h0
    cases hm : m.getLsbD 0 <;> simp
  · have := hb (k - 1) (by omega)
    rw [show 1 + (k - 1) = k by omega] at this
    rw [this]
    cases hm : m.getLsbD 0 <;> simp [h0]

/-- A symbol byte as IMM has a zero high byte. -/
@[simp] theorem setWidth_high_byte (b : Byte) : (b.setWidth 16).extractLsb' 8 8 = 0#8 := by
  apply BitVec.eq_of_getLsbD_eq; intro k hk; simp [hk]

@[simp] theorem setWidth_low_byte (b : Byte) : (b.setWidth 16).extractLsb' 0 8 = b := by
  apply BitVec.eq_of_getLsbD_eq; intro k hk; simp [hk]; omega

/-- A field that lies wholly under a mask is fixed by the masked word. -/
theorem field_of_masked {w mask v : Word} (h : w &&& mask = v) {lo len : Nat}
    (hm : mask.extractLsb' lo len = BitVec.allOnes len) : w.extractLsb' lo len = v.extractLsb' lo len := by
  rw [← h, BitVec.extractLsb'_and, hm, BitVec.and_allOnes]

/-- A masked word is 0 exactly when each masked field is. -/
theorem masked_eq_zero_iff (w m : Word) :
    w &&& m = 0 ↔ opField w &&& opField m = 0 ∧ selField w &&& selField m = 0 ∧ idxField w &&& idxField m = 0 ∧
      immField w &&& immField m = 0 := by
  constructor
  · intro h
    have key : ∀ lo len, w.extractLsb' lo len &&& m.extractLsb' lo len = 0 := by
      intro lo len; rw [← BitVec.extractLsb'_and, h]; simp
    exact ⟨key _ _, key _ _, key _ _, key _ _⟩
  · rintro ⟨h1, h2, h3, h4⟩
    rw [← cmd32_fields (w &&& m)]
    simp only [opField, selField, idxField, immField] at *
    rw [BitVec.extractLsb'_and, BitVec.extractLsb'_and, BitVec.extractLsb'_and, BitVec.extractLsb'_and, h1, h2, h3, h4]
    rfl

theorem imm_high_masked_iff (w : Word) : immField w &&& 0xFF00#16 = 0 ↔ immHigh w = 0 := by
  rw [immHigh_eq]
  generalize immField w = m
  constructor
  · intro h
    have h' := congrArg (fun x : Half => x.extractLsb' 8 8) h
    rw [BitVec.extractLsb'_and, show (0xFF00#16).extractLsb' 8 8 = BitVec.allOnes 8 by decide,
      BitVec.and_allOnes] at h'
    simpa using h'
  · intro h
    rw [← imm_of_high_zero h]
    apply BitVec.eq_of_getLsbD_eq; intro k hk
    interval_cases k <;> simp

theorem imm_above_masked_iff (w : Word) : immField w &&& 0xFFFE#16 = 0 ↔ immAboveBit0 w = 0 := by
  rw [immAboveBit0_eq]
  generalize immField w = m
  constructor
  · intro h
    have h' := congrArg (fun x : Half => x.extractLsb' 1 15) h
    rw [BitVec.extractLsb'_and, show (0xFFFE#16).extractLsb' 1 15 = BitVec.allOnes 15 by decide,
      BitVec.and_allOnes] at h'
    simpa using h'
  · intro h
    rw [← imm_of_above_zero h]
    cases m.getLsbD 0 <;> rfl

@[simp] theorem selectorOf_selectorCode (sel : Selector) : selectorOf (selectorCode sel) = sel := by
  cases sel <;> rfl

@[simp] theorem selectorCode_selectorOf (v : BitVec 4) : selectorCode (selectorOf v) = v := by
  revert v; decide

theorem requireZero_ok {b : Bool} {i j : Instr} : requireZero b i = .ok j ↔ b = true ∧ i = j := by
  cases b <;> simp [requireZero]

theorem requireZero_error {b : Bool} {i : Instr} {e : CmdError} :
    requireZero b i = .error e ↔ b = false ∧ e = .rsvdField := by
  cases b <;> simp [requireZero, eq_comm]

end Sys2Proof
end

