-- ==== Sys2Proof/Laws/Operands.lean ====
section
/-! SUPPORT. The operand checks: what a checked command can do, and that the checks are 30_encoding.md R82's. -/

namespace Sys2Proof.Machine

/-- A checked command is rejected with its code, or has its effect; there is no third outcome. -/
theorem checked_cases (err : Option CmdError) (effect : State → State) (s : State) :
    (∃ e, err = some e ∧ checked err effect s = .next (s.reject e)) ∨
      (err = none ∧ checked err effect s = .next (effect s)) := by
  cases err with
  | some e => exact .inl ⟨e, rfl, rfl⟩
  | none => exact .inr ⟨rfl, rfl⟩

@[simp] theorem checked_none (effect : State → State) (s : State) : checked none effect s = .next (effect s) := rfl

@[simp] theorem checked_some (e : CmdError) (effect : State → State) (s : State) :
    checked (some e) effect s = .next (s.reject e) := rfl

@[simp] theorem indexError_of_lt {c : Config} {i : Byte} (h : i.toNat < c.n) : indexError c i = none := by
  simp [indexError, h]

theorem processError_none {c : Config} {i : Byte} {smp : Half} (hi : i.toNat < c.n) (hs : smp.toNat < 2 ^ c.sw) :
    processError c i smp = none := by
  simp [processError, indexError, sampleError, hi, hs]

theorem readError_none_iff (c : Config) (sel : Selector) (i : Byte) :
    readError c sel i = none ↔ (Instr.read sel i).wellFormed c = true := by
  cases sel <;> simp [readError, indexError, globalIndexError, Instr.wellFormed, Selector.perBit]

theorem processError_none_iff (c : Config) (i : Byte) (smp : Half) :
    processError c i smp = none ↔ (Instr.process i smp).wellFormed c = true := by
  simp [processError, indexError, sampleError, Instr.wellFormed]

theorem indexError_none_iff (c : Config) (i b : Byte) :
    indexError c i = none ↔ (Instr.settgt i b).wellFormed c = true := by
  simp [indexError, Instr.wellFormed]

/-- READ's checks by the selector's scope (45_control_port.md R202). -/
theorem readError_perBit (c : Config) (sel : Selector) (i : Byte) :
    readError c sel i =
      match sel.perBit with
      | some true => indexError c i
      | some false => globalIndexError i
      | none => some .badSel := by
  cases sel <;> rfl

/-- The code an operation is rejected with for its operands, whichever operation it is. -/
def operandError (c : Config) : Instr → Option CmdError
  | .process i smp => processError c i smp
  | .settgt i _ => indexError c i
  | .read sel i => readError c sel i
  | .nop | .cycle | .lookup _ | .advance | .pulse | .wrctl _ => none

/-- The machine's checks are those of 30_encoding.md R82. -/
theorem operandError_none_iff (c : Config) (i : Instr) : operandError c i = none ↔ i.wellFormed c = true := by
  cases i with
  | process i smp => exact processError_none_iff c i smp
  | settgt i b => exact indexError_none_iff c i b
  | read sel i => exact readError_none_iff c sel i
  | nop | cycle | lookup | advance | pulse | wrctl => simp [operandError, Instr.wellFormed]

theorem exec_of_operandError {i : Instr} {s : State} {e : CmdError} (h : operandError s.cfg i = some e) :
    exec i s = .next (s.reject e) := by
  cases i <;> simp_all [operandError, exec, execProcess, execSettgt, execRead]

/-- What a host command can do: it is rejected for its operands, or it has its effect. -/
theorem exec_cases {i : Instr} {s t : State} (h : exec i s = .next t) :
    (∃ e, operandError s.cfg i = some e ∧ t = s.reject e) ∨
      (operandError s.cfg i = none ∧
        match i with
        | .nop => t = s.respond 0
        | .cycle => t = (cycleBody s).respond (State.packBits (cycleNeeds s))
        | .process k smp => t = processCommand k.toNat smp.toNat s
        | .settgt k b => t = setTargetCommand k.toNat b s
        | .lookup b => t = s.respond (BitVec.ofNat 32 (positionOf s.cfg b))
        | .advance => t = (advance s).respond (s.msgNext.setWidth 32)
        | .pulse => t = s.emitPulse.respond (State.packBits s.clutchLevels)
        | .read sel k => t = s.respond (readValue sel k.toNat s)
        | .wrctl v => t = writeControl v s) := by
  cases ho : operandError s.cfg i with
  | some e =>
    rw [exec_of_operandError ho] at h
    cases h
    exact .inl ⟨e, rfl, rfl⟩
  | none =>
    refine .inr ⟨rfl, ?_⟩
    cases i with
    | nop | cycle | lookup | advance | pulse | wrctl =>
      cases h
      rfl
    | process | settgt | read =>
      simp only [operandError] at ho
      simp only [exec, execProcess, execSettgt, execRead, ho, checked_none] at h
      cases h
      rfl

/-- Every host command answers a next state. -/
theorem exec_next (i : Instr) (s : State) : ∃ t, exec i s = .next t := by
  cases ho : operandError s.cfg i with
  | some e => exact ⟨_, exec_of_operandError ho⟩
  | none =>
    cases i with
    | nop | cycle | lookup | advance | pulse | wrctl => exact ⟨_, rfl⟩
    | process | settgt | read =>
      simp only [operandError] at ho
      simp only [exec, execProcess, execSettgt, execRead, ho, checked_none]
      exact ⟨_, rfl⟩

end Sys2Proof.Machine
end

