-- ==== Sys2Proof/Laws/PerInstr.lean ====
section
/-! SUPPORT. Families of facts about instructions as syntax, one lemma a constructor. -/

namespace Sys2Proof.Laws

namespace EncodedInRow

/-- The match value of the instruction's row of spec/opcode_table.json (30_encoding.md R84). -/
def rowMatch : Instr → Word
  | .nop => 0x00000000#32
  | .cycle => 0x10000000#32
  | .process _ _ => 0x20000000#32
  | .settgt _ _ => 0x30000000#32
  | .lookup _ => 0x40000000#32
  | .advance => 0x50000000#32
  | .pulse => 0x60000000#32
  | .read _ _ => 0x70000000#32
  | .wrctl _ => 0x80000000#32

/-- The mask of the instruction's row (R84). -/
def rowMask : Instr → Word
  | .nop => 0xFFFFFFFF#32
  | .cycle => 0xFFFFFFFF#32
  | .process _ _ => 0xFF000000#32
  | .settgt _ _ => 0xFF00FF00#32
  | .lookup _ => 0xFFFFFF00#32
  | .advance => 0xFFFFFFFF#32
  | .pulse => 0xFFFFFFFF#32
  | .read _ _ => 0xF000FFFF#32
  | .wrctl _ => 0xFFFFFFFE#32

/-- The instruction's word lies in its row of the opcode table: `(word & mask) == match` (R84). -/
def Statement (i : Instr) : Prop := encode i &&& rowMask i = rowMatch i

theorem nop : Statement .nop := rfl

theorem cycle : Statement .cycle := rfl

theorem process (i : Byte) (s : Half) : Statement (.process i s) := by
  apply BitVec.eq_of_getLsbD_eq
  intro k hk
  rw [encode, rowMask, rowMatch, BitVec.getLsbD_and, cmd32_getLsbD]
  interval_cases k <;> simp

theorem settgt (i b : Byte) : Statement (.settgt i b) := by
  apply BitVec.eq_of_getLsbD_eq
  intro k hk
  rw [encode, rowMask, rowMatch, BitVec.getLsbD_and, cmd32_getLsbD]
  interval_cases k <;> simp

theorem lookup (b : Byte) : Statement (.lookup b) := by
  apply BitVec.eq_of_getLsbD_eq
  intro k hk
  rw [encode, rowMask, rowMatch, BitVec.getLsbD_and, cmd32_getLsbD]
  interval_cases k <;> simp

theorem advance : Statement .advance := rfl

theorem pulse : Statement .pulse := rfl

theorem read (sel : Selector) (i : Byte) : Statement (.read sel i) := by
  apply BitVec.eq_of_getLsbD_eq
  intro k hk
  rw [encode, rowMask, rowMatch, BitVec.getLsbD_and, cmd32_getLsbD]
  interval_cases k <;> simp

theorem wrctl (v : Bool) : Statement (.wrctl v) := by
  cases v <;> rfl

end EncodedInRow

end Sys2Proof.Laws
end

