-- ==== Sys2Proof/Laws/Sequencer.lean ====
section
/-! SUPPORT. What one step can do. -/

namespace Sys2Proof.Machine

theorem step_of_legal {s : State} (h : s.cfg.Legal) : step s = runBoundary s.boundaryInput s.openBoundary := if_pos h

theorem step_of_illegal {s : State} (h : ¬ s.cfg.Legal) : step s = .refused .illegalConfiguration := if_neg h

/-- Everything a step that answers a next state can do: reset, run a decoded command, reject a word, run the
sequencer's CYCLE, or wait. -/
theorem step_cases {s t : State} (h : step s = .next t) :
    s.cfg.Legal ∧
      ((s.boundaryInput.rst = true ∧ t = s.openBoundary.applyReset) ∨
        (s.boundaryInput.rst = false ∧ s.boundaryInput.cmdValid = true ∧
          ∃ i, decode s.boundaryInput.cmd = .ok i ∧ exec i s.openBoundary = .next t) ∨
        (s.boundaryInput.rst = false ∧ s.boundaryInput.cmdValid = true ∧
          ∃ e, decode s.boundaryInput.cmd = .error e ∧ t = s.openBoundary.reject e) ∨
        (s.boundaryInput.rst = false ∧ s.boundaryInput.cmdValid = false ∧ ctrlRun s.ctrl = true ∧
          t = cycleBody s.openBoundary) ∨
        (s.boundaryInput.rst = false ∧ s.boundaryInput.cmdValid = false ∧ ctrlRun s.ctrl = false ∧
          t = s.openBoundary)) := by
  by_cases hl : s.cfg.Legal
  · refine ⟨hl, ?_⟩
    rw [step_of_legal hl, runBoundary] at h
    cases hr : s.boundaryInput.rst with
    | true =>
      simp only [hr, if_true, Host.Outcome.next.injEq] at h
      exact .inl ⟨rfl, h.symm⟩
    | false =>
      cases hv : s.boundaryInput.cmdValid with
      | true =>
        simp only [hr, hv, if_true, runWord, Bool.false_eq_true, if_false] at h
        cases hd : decode s.boundaryInput.cmd with
        | ok i =>
          rw [hd] at h
          exact .inr (.inl ⟨rfl, rfl, i, rfl, h⟩)
        | error e =>
          simp only [hd, Host.Outcome.next.injEq] at h
          exact .inr (.inr (.inl ⟨rfl, rfl, e, rfl, h.symm⟩))
      | false =>
        simp only [hr, hv, Bool.false_eq_true, if_false, Host.Outcome.next.injEq, runSequencer,
          State.openBoundary_ctrl, sequencerCycle] at h
        cases hc : ctrlRun s.ctrl with
        | true => exact .inr (.inr (.inr (.inl ⟨rfl, rfl, rfl, by simpa [hc] using h.symm⟩)))
        | false => exact .inr (.inr (.inr (.inr ⟨rfl, rfl, rfl, by simpa [hc] using h.symm⟩)))
  · rw [step_of_illegal hl] at h
    cases h

end Sys2Proof.Machine
end

