-- ==== Sys2Proof/Tests/Slice0.lean ====
section
/-! SUPPORT. Tests, with expected results from 95_test_vectors.md and the rules' own examples (never from the model), and
a witness for the hypotheses of every statement that has some. -/

namespace Sys2Proof.Tests

open Sys2Proof Sys2Proof.Machine

/-- Whether an outcome is a next state with this property. -/
def nextIs (o : Host.Outcome State Fault Refusal) (p : State → Bool) : Bool :=
  match o with
  | .next t => p t
  | .fault _ => false
  | .refused _ => false

/-! ### Small states -/

/-- Registers of a bit: STATE, SENS, SSH, TGT, as the vectors write them; the clutch disengaged. -/
def bit (state : BitState) (sens : SensorState) (ssh tgt : Nat) : BitRegs :=
  ⟨state, sens, ⟨BitVec.ofNat 16 ssh⟩, ⟨BitVec.ofNat 16 tgt⟩, false⟩

/-- An SFC with the sequencer stopped, these registers and these samples on its ports. -/
def sfc (c : Config) (bits : List BitRegs) (msgNext : Nat) (ports : List Half) : State :=
  { State.resetWith c with
    bits := bits, msgNext := BitVec.ofNat 16 msgNext, ctrl := 0, sampleIn := [ports],
    hostIn := [⟨false, false, 0⟩, ⟨false, false, 0⟩] }

def cfgA (hoff : Nat) : Config := { Config.configA with bits := [⟨⟨58⟩, ⟨hoff⟩, 3000, 1000⟩] }

/-- One-bit states of section 2.4's vectors, with HOFF 3. -/
def oneBit (state : BitState) (sens : SensorState) (ssh tgt : Nat) : State :=
  sfc (cfgA 3) [bit state sens ssh tgt] 0 [3500]

/-- Config C with both bits Settled, SENS Triggered, SSH = TGT (V61). -/
def settledC : State :=
  sfc Config.configC [bit .settled .triggered 0 0, bit .settled .triggered 2 2] 0 [3000, 3000]

/-- Config C with bit 0 Uninitialized and bit 1 Settled (V66). -/
def halfHomedC : State :=
  sfc Config.configC [bit .uninitialized .untriggered 0 0, bit .settled .triggered 2 2] 0 [500, 3000]

theorem test_configA_legal : Config.configA.Legal := by decide

theorem test_configB_legal : Config.configB.Legal := by decide

theorem test_configC_legal : Config.configC.Legal := by decide

theorem test_reference_legal : Config.reference.Legal := by decide

/-- `HOFF >= TOTAL`. -/
theorem test_illegal_home_offset : ¬ (cfgA 3190).Legal := by decide

/-- `TRIG` 3000 does not fit 11 bits. -/
theorem test_illegal_sample_width : ¬ ({ Config.configA with sw := 11 }).Legal := by decide

theorem test_illegal_no_bits : ¬ ({ Config.configA with bits := [] }).Legal := by decide

theorem test_illegal_short_row : ¬ ({ Config.configA with msgs := [[]] }).Legal := by decide

theorem test_illegal_symtab : ¬ ({ Config.configA with symtab := [] }).Legal := by decide

theorem inv_oneBit : (oneBit .seeking .triggered 4 5).Inv := by constructor <;> decide

theorem inv_wrapping : (oneBit .seeking .triggered 3189 5).Inv := by constructor <;> decide

theorem inv_unhomed : (oneBit .uninitialized .untriggered 0 61).Inv := by constructor <;> decide

theorem inv_settledC : settledC.Inv := by constructor <;> decide

theorem inv_halfHomedC : halfHomedC.Inv := by constructor <;> decide

/-! ### Decoding: words written out from 30_encoding.md R81, R84, R89 -/

theorem test_decode_nop : decode 0b0000_0000_00000000_0000000000000000#32 = .ok .nop := by decide

theorem test_decode_cycle : decode 0b0001_0000_00000000_0000000000000000#32 = .ok .cycle := by decide

theorem test_decode_process : decode 0b0010_0000_00000101_0000101110111000#32 = .ok (.process 5 3000) := by decide

theorem test_decode_settgt : decode 0b0011_0000_00000010_0000000001000001#32 = .ok (.settgt 2 0x41) := by decide

theorem test_decode_lookup : decode 0b0100_0000_00000000_0000000011111111#32 = .ok (.lookup 0xFF) := by decide

theorem test_decode_advance : decode 0b0101_0000_00000000_0000000000000000#32 = .ok .advance := by decide

theorem test_decode_pulse : decode 0b0110_0000_00000000_0000000000000000#32 = .ok .pulse := by decide

theorem test_decode_read : decode 0b0111_1100_00000001_0000000000000000#32 = .ok (.read .total 1) := by decide

theorem test_decode_wrctl : decode 0b1000_0000_00000000_0000000000000001#32 = .ok (.wrctl true) := by decide

/-- V90 to V95, V101, V102: code 1 for a reserved OP, code 2 for a must-be-zero field. -/
theorem test_decode_rejects :
    decode 0x90000000#32 = .error .illegalOp ∧ decode 0xF1234567#32 = .error .illegalOp ∧
    decode 0x00000001#32 = .error .rsvdField ∧ decode 0x10010000#32 = .error .rsvdField ∧
    decode 0x30000141#32 = .error .rsvdField ∧ decode 0x80000002#32 = .error .rsvdField ∧
    decode 0x2F00FFFF#32 = .error .rsvdField ∧ decode 0x7F050001#32 = .error .rsvdField := by decide

/-- R89's encodings. -/
theorem test_encode :
    encode (.process 0 3000) = 0x20000BB8#32 ∧ encode (.settgt 0 0x41) = 0x30000041#32 ∧
    encode (.lookup 0x48) = 0x40000048#32 ∧ encode (.read .tgt 0) = 0x73000000#32 ∧
    encode (.wrctl true) = 0x80000001#32 := by decide

theorem test_table_word : decodeTableWord 32 0x7F000000 = some (.read .reserved 0) ∧ decodeTableWord 32 0xA0000000 = none := by
  decide

/-! ### Well-formedness refuses each ill-formed term -/

theorem test_ill_formed_index :
    (Instr.process 2 0).wellFormed Config.configC = false ∧ (Instr.settgt 2 0x41).wellFormed Config.configC = false ∧
    (Instr.read .state 2).wellFormed Config.configC = false := by decide

theorem test_ill_formed_sample : (Instr.process 0 4096).wellFormed Config.configC = false := by decide

theorem test_ill_formed_selector :
    (Instr.read .reserved 0).wellFormed Config.configC = false ∧ (Instr.read .msgNext 1).wellFormed Config.configC = false := by
  decide

theorem test_well_formed : (Instr.process 1 4095).wellFormed Config.configC = true ∧ (Instr.read .total 1).wellFormed Config.configC = true := by
  decide

/-! ### The datapath: 95_test_vectors.md sections 2.2 and 2.3, 42_sensor_debounce.md R144 -/

/-- V10 to V13. -/
theorem test_position_engine :
    (posInc ⟨3188⟩ 3190).val = 3189 ∧ (posInc ⟨3189⟩ 3190).val = 0 ∧ (posAdd ⟨3189⟩ ⟨1⟩ 3190).val = 0 ∧
    (deltaMul ⟨58⟩ 54).steps = 3132 := by decide

/-- V14 to V21. -/
theorem test_target_for :
    (targetFor ⟨⟨58⟩, ⟨3⟩, 3000, 1000⟩ 54).val = 3135 ∧ (targetFor ⟨⟨58⟩, ⟨348⟩, 3000, 1000⟩ 48).val = 3132 ∧
    (targetFor ⟨⟨58⟩, ⟨348⟩, 3000, 1000⟩ 49).val = 0 ∧ (targetFor ⟨⟨58⟩, ⟨3189⟩, 3000, 1000⟩ 54).val = 3131 ∧
    (targetFor ⟨⟨1⟩, ⟨0⟩, 3000, 1000⟩ 0).val = 0 := by decide

/-- R144's rows at the thresholds. -/
theorem test_debounce :
    debounce .untriggered 3000 3000 1000 = .triggered ∧ debounce .untriggered 2999 3000 1000 = .untriggered ∧
    debounce .triggered 1001 3000 1000 = .triggered ∧ debounce .triggered 1000 3000 1000 = .untriggered := by decide

/-! ### One instruction on a small state -/

/-- V70: NOP leaves RSP 0. -/
theorem test_nop : nextIs (exec .nop { settledC with rsp := 7 }) (fun t => t.rsp == 0 && t.out == [.cmdDone]) = true := by
  decide

/-- V60: from the reset state, one need each, one pulse, IDLE 0, RSP 3. -/
theorem test_cycle_from_reset :
    nextIs (exec .cycle { State.resetWith Config.configC with sampleIn := [[500, 500]] })
      (fun t => t.rsp == 3 && t.clutchLevels == [true, true] && statusIdle t.status == false &&
        t.out == [.clutchEn [true, true], .step true, .wait 1, .step false, .cmdDone]) = true := by decide

/-- V61: all idle; row 0 is loaded into the targets, MSG_NEXT is 1, IDLE 1, RSP 0. -/
theorem test_cycle_all_idle :
    nextIs (exec .cycle settledC)
      (fun t => t.rsp == 0 && t.clutchLevels == [false, false] && statusIdle t.status && t.msgNext == 1 &&
        t.bits.map (·.tgt.val) == [1, 2] && t.bits.map (·.ssh.val) == [0, 2]) = true := by decide

/-- E2, first call: the edge leaves Seeking, SSH 1, TGT 3, need 1 (R158's example). -/
theorem test_process_first_edge :
    nextIs (exec (.process 0 3000) (oneBit .uninitialized .untriggered 0 0))
      (fun t => t.bits == [{ bit .seeking .triggered 1 3 with clutch := true }] && t.rsp == 1) = true := by decide

/-- V45: SSH wraps from 3189 to 0. -/
theorem test_process_wraps :
    nextIs (exec (.process 0 3500) (oneBit .seeking .triggered 3189 5))
      (fun t => t.bits == [{ bit .seeking .triggered 0 5 with clutch := true }] && t.rsp == 1) = true := by decide

/-- V50: SETTGT 'A' while Settled leaves TGT 61 and STATE Settled. -/
theorem test_settgt :
    nextIs (exec (.settgt 0 0x41) (oneBit .settled .triggered 3 3))
      (fun t => t.bits == [bit .settled .triggered 3 61] && t.rsp == 61) = true := by decide

/-- V53: the largest sum wraps, HOFF 3189 and ordinal 54. -/
theorem test_settgt_wraps :
    nextIs (exec (.settgt 0 0x0D) (sfc (cfgA 3189) [bit .settled .triggered 3 3] 0 [])) (fun t => t.rsp == 3131) = true := by
  decide

/-- V1 and V3: 0x0A is ordinal 53; an absent byte with the high bit set is ordinal 0. -/
theorem test_lookup :
    nextIs (exec (.lookup 0x0A) settledC) (fun t => t.rsp == 53) = true ∧
    nextIs (exec (.lookup 0xFF) settledC) (fun t => t.rsp == 0) = true := by decide

/-- V62: row 1 of Config C, and MSG_NEXT wraps to 0. -/
theorem test_advance :
    nextIs (exec .advance { settledC with msgNext := 1 })
      (fun t => t.bits.map (·.tgt.val) == [0, 10] && t.msgNext == 0 && t.rsp == 1) = true := by decide

/-- V64: CLUTCH (1, 0), one pulse, RSP 1. -/
theorem test_pulse :
    nextIs (exec .pulse { settledC with
        bits := [{ bit .seeking .triggered 1 1 with clutch := true }, bit .settled .triggered 2 2] })
      (fun t => t.rsp == 1 && t.out == [.step true, .wait 1, .step false, .cmdDone]) = true := by decide

/-- V80 and P1 step 18: READ TOTAL is 3190; READ SSH is 4. -/
theorem test_read :
    nextIs (exec (.read .total 0) (oneBit .seeking .triggered 4 61)) (fun t => t.rsp == 3190) = true ∧
    nextIs (exec (.read .ssh 0) (oneBit .seeking .triggered 4 61)) (fun t => t.rsp == 4) = true := by decide

/-- V85: WRCTL 1 leaves CTRL 1 and RSP 1. -/
theorem test_wrctl :
    nextIs (exec (.wrctl true) settledC) (fun t => t.ctrl == 1 && t.rsp == 1) = true ∧
    nextIs (exec (.wrctl false) (State.resetWith Config.configC)) (fun t => t.ctrl == 0 && t.rsp == 0) = true := by decide

/-! ### Command errors: V96 to V103 -/

theorem test_rejections :
    nextIs (runWord 0x7F000000#32 settledC) (fun t => t.status == 0x41 && t.rsp == 0xFFFFFFFF) = true ∧
    nextIs (runWord 0x75010000#32 settledC) (fun t => t.status == 0x21) = true ∧
    nextIs (runWord 0x70020000#32 settledC) (fun t => t.status == 0x31) = true ∧
    nextIs (runWord 0x20001000#32 settledC) (fun t => t.status == 0x51) = true ∧
    nextIs (runWord 0x20051000#32 settledC) (fun t => t.status == 0x31 && t.bits == settledC.bits) = true := by decide

/-- V103: the first code is kept. -/
theorem test_first_code_kept :
    nextIs (runWord 0x30020041#32 { settledC with status := 0x11 }) (fun t => t.status == 0x11) = true := by decide

/-- The codes of the same words by 60_exceptions.md R223's order. -/
theorem test_rejection_codes :
    rejectionCode Config.configC 0x90000000#32 = some 1 ∧ rejectionCode Config.configC 0x2F00FFFF#32 = some 2 ∧
    rejectionCode Config.configC 0x7F000000#32 = some 4 ∧ rejectionCode Config.configC 0x75010000#32 = some 2 ∧
    rejectionCode Config.configC 0x20051000#32 = some 3 ∧ rejectionCode Config.configC 0x20001000#32 = some 5 ∧
    rejectionCode Config.configC 0x20010FFF#32 = none := by decide

/-! ### Steps -/

/-- V86: a READ CTRL presented at reset release runs first and gives 1. -/
theorem test_step_from_reset :
    nextIs (step (State.reset.withFetchWord 32 0x76000000)) (fun t => t.rsp == 1 && t.out == [.cmdDone]) = true := by decide

/-- R190, R191: with no command and RUN = 1 a CYCLE runs, and RSP is not written (10_state.md R33). -/
theorem test_step_sequencer :
    nextIs (step { settledC with ctrl := 1, rsp := 9 }) (fun t => t.rsp == 9 && t.msgNext == 1) = true := by decide

/-! ### Witnesses for the hypotheses of the statements -/

theorem witness_AcceptedWordIsItsEncoding : decode 0x8F000000#32 ≠ .ok .nop ∧ decode 0x73010000#32 = .ok (.read .tgt 1) := by decide

/-- Words that meet the right side of a clause: a row with operands, a reserved OP at its boundary, and two words that no
row matches (the second is R223's example). -/
theorem witness_WordSelectsOperationByMaskAndMatch :
    0x2005FFFF#32 &&& 0xFF000000#32 = 0x20000000#32 ∧ 9 ≤ ((0x90000000#32).extractLsb' 28 4).toNat ∧
    (((0x80000002#32).extractLsb' 28 4).toNat ≤ 8 ∧ ∀ row ∈ opcodeRows, 0x80000002#32 &&& row.1 ≠ row.2) ∧
    ((0x2F00FFFF#32).extractLsb' 28 4).toNat ≤ 8 ∧ ∀ row ∈ opcodeRows, 0x2F00FFFF#32 &&& row.1 ≠ row.2 := by
  exact ⟨by decide, by decide, ⟨by decide, by simp [opcodeRows]⟩, by decide, by simp [opcodeRows]⟩

/-- One word for each code, on a state whose record is empty and on one whose record is taken. -/
theorem witness_RejectedCommandHasExactlyTheseEffects :
    rejectionCode settledC.cfg 0xF0000000#32 = some 1 ∧ rejectionCode settledC.cfg 0x6000_8000#32 = some 2 ∧
    rejectionCode settledC.cfg 0x30020041#32 = some 3 ∧ rejectionCode settledC.cfg 0x7FFF0000#32 = some 4 ∧
    rejectionCode settledC.cfg 0x2001FFFF#32 = some 5 ∧ statusErr settledC.status = false ∧
    statusErr ({ settledC with status := 0x11 } : State).status = true := by decide

theorem witness_UnrejectedWordSelectsWellFormedOperation :
    rejectionCode settledC.cfg 0x20010FFF#32 = none ∧ decode 0x20010FFF#32 = .ok (.process 1 4095) ∧
    (Instr.process 1 4095).wellFormed settledC.cfg = true := by decide

theorem witness_ErrorRecordIsSticky :
    ∃ t, step { settledC with status := 0x11, ctrl := 1 } = .next t ∧
      ({ settledC with status := 0x11, ctrl := 1 } : State).boundaryInput.rst = false ∧ statusErr 0x11#32 = true :=
  ⟨_, rfl, by decide, by decide⟩

/-- A legal state at whose boundary the host presents a word. -/
def presenting (w : Word) : State := settledC.presentWord w

theorem witness_StepRunsDecodedCommand :
    (presenting 0x73010000#32).cfg.Legal ∧ (presenting 0x73010000#32).boundaryInput.rst = false ∧
    (presenting 0x73010000#32).boundaryInput.cmdValid = true ∧
    decode (presenting 0x73010000#32).boundaryInput.cmd = .ok (.read .tgt 1) := by decide

theorem witness_StepRejectsUndecodableWord :
    (presenting 0x90000000#32).cfg.Legal ∧ (presenting 0x90000000#32).boundaryInput.rst = false ∧
    (presenting 0x90000000#32).boundaryInput.cmdValid = true ∧
    decode (presenting 0x90000000#32).boundaryInput.cmd = .error .illegalOp ∧
    decode 0x00000001#32 = .error .rsvdField := by decide

theorem witness_SequencerRunsCycleWithoutResponse :
    ({ settledC with ctrl := 1 } : State).cfg.Legal ∧ ({ settledC with ctrl := 1 } : State).boundaryInput.rst = false ∧
    ({ settledC with ctrl := 1 } : State).boundaryInput.cmdValid = false ∧ ctrlRun 1#32 = true := by decide

theorem witness_HaltedMachineWaits :
    settledC.cfg.Legal ∧ settledC.boundaryInput.rst = false ∧ settledC.boundaryInput.cmdValid = false ∧
    ctrlRun settledC.ctrl = false := by decide

theorem witness_ResetInputGivesResetValues :
    ({ settledC with hostIn := [⟨true, true, 0x60000000⟩] } : State).cfg.Legal ∧
    ({ settledC with hostIn := [⟨true, true, 0x60000000⟩] } : State).boundaryInput.rst = true := by decide

theorem witness_ResetStateHoldsResetValues : 1 < Config.configC.n := by decide

theorem witness_IllegalConfigurationIsRefused : ¬ (sfc (cfgA 3190) [] 0 []).cfg.Legal := by decide

theorem witness_EveryOperationCompletes : settledC.cfg.Legal := by decide

theorem witness_ResetMeetsInvariant : Config.configB.Legal := by decide

theorem witness_StepKeepsInvariant :
    settledC.Inv ∧ ∃ t, step { settledC with ctrl := 1 } = .next t := ⟨inv_settledC, _, rfl⟩

theorem witness_HomedBitStaysHomed :
    settledC.Inv ∧ (∃ t, step settledC = .next t) ∧ settledC.boundaryInput.rst = false ∧ 1 < settledC.cfg.n ∧
    (settledC.reg 1).state ≠ .uninitialized := ⟨inv_settledC, ⟨_, rfl⟩, by decide, by decide, by decide⟩

theorem witness_ConfigurationNeverChanges : ∃ t, step (presenting 0x50000000#32) = .next t := ⟨_, rfl⟩

theorem witness_RegistersAreWrittenOnlyByTheirWriters :
    settledC.Shaped ∧ (∃ t, exec (.lookup 0x41) settledC = .next t) ∧
    (∀ k smp, Instr.lookup 0x41 ≠ .process k smp) ∧ Instr.lookup 0x41 ≠ .cycle ∧
    (∀ k b, Instr.lookup 0x41 ≠ .settgt k b) ∧ Instr.lookup 0x41 ≠ .advance ∧ (∀ v, Instr.lookup 0x41 ≠ .wrctl v) :=
  ⟨by decide, ⟨_, rfl⟩, by simp, by simp, by simp, by simp, by simp⟩

/-- The smallest and the largest modulus, and the two clauses of `pos_inc` where they meet. -/
theorem witness_PositionEngineIsExact :
    55 ≤ 55 ∧ 55 ≤ 2 ^ 16 ∧ 2 ^ 16 ≤ 2 ^ 16 ∧ (⟨54⟩ : StepPos).val = 55 - 1 ∧ (⟨53⟩ : StepPos).val < 55 := by decide

/-- The first ordinal whose sum wraps is 49 (41_position_arith.md R126), and 48 does not. -/
theorem witness_TargetForIsHomeOffsetPlusOrdinalFlaps :
    (⟨⟨58⟩, ⟨348⟩, 3000, 1000⟩ : BitConfig).Legal 12 ∧ (3190 - 1 - 348) / 58 < 49 ∧ ¬ (3190 - 1 - 348) / 58 < 48 := by
  decide

theorem witness_OneSubtractionReducesEverySum : (⟨⟨58⟩, ⟨3189⟩, 3000, 1000⟩ : BitConfig).Legal 12 ∧ 54 ≤ 54 := by decide

/-- A byte of the table and a byte absent from it. -/
theorem witness_LookupAnswersFirstOrdinal :
    settledC.cfg.symtab.length = 55 ∧ settledC.cfg.symtab[54]? = some 0x0D#8 ∧ 0x7E#8 ∉ settledC.cfg.symtab := by decide

theorem witness_SourceSymbolsStandAtTheirOrdinals : settledC.cfg.Legal := by decide

/-- Each clause at its boundary. -/
theorem witness_DebouncerHasHysteresis :
    1000 < 3000 ∧ 3000 ≤ 3000 ∧ 1000 ≤ 1000 ∧ (1000 < 1001 ∧ 1001 < 3000) ∧ (1000 < 2999 ∧ 2999 < 3000) := by decide

theorem witness_ProcessKeepsTurningBeforeHoming :
    halfHomedC.cfg.Legal ∧ halfHomedC.Shaped ∧ (0#8).toNat < halfHomedC.cfg.n ∧
    (2999#16).toNat < 2 ^ halfHomedC.cfg.sw ∧ (halfHomedC.reg 0).state = .uninitialized ∧
    ¬ EdgeSample (halfHomedC.cfg.bit 0) (halfHomedC.reg 0) 2999 := by decide

/-- HOFF > 0 (Config A) and HOFF = 0 (Config C, bit 0). -/
theorem witness_FirstHomeEdgeTargetsHomeOffset :
    ((oneBit .uninitialized .untriggered 0 61).cfg.Legal ∧ (oneBit .uninitialized .untriggered 0 61).Shaped ∧
      EdgeSample ((oneBit .uninitialized .untriggered 0 61).cfg.bit 0) ((oneBit .uninitialized .untriggered 0 61).reg 0)
        3000 ∧
      ((oneBit .uninitialized .untriggered 0 61).cfg.bit 0).hoff.steps ≠ 0) ∧
    (halfHomedC.cfg.Legal ∧ halfHomedC.Shaped ∧ (halfHomedC.reg 0).state = .uninitialized ∧
      EdgeSample (halfHomedC.cfg.bit 0) (halfHomedC.reg 0) 4095 ∧ (4095#16).toNat < 2 ^ halfHomedC.cfg.sw ∧
      (halfHomedC.cfg.bit 0).hoff.steps = 0) := ⟨⟨by decide, by decide, by decide, by decide⟩,
    by decide, by decide, by decide, by decide, by decide, by decide⟩

/-- V49 (TGT 0) and V48 (TGT 100). -/
theorem witness_LaterHomeEdgeResynchronises :
    (oneBit .seeking .untriggered 50 0).cfg.Legal ∧ (oneBit .seeking .untriggered 50 0).Shaped ∧
    (0#8).toNat < (oneBit .seeking .untriggered 50 0).cfg.n ∧
    (3000#16).toNat < 2 ^ (oneBit .seeking .untriggered 50 0).cfg.sw ∧
    ((oneBit .seeking .untriggered 50 0).reg 0).state ≠ .uninitialized ∧
    EdgeSample ((oneBit .seeking .untriggered 50 0).cfg.bit 0) ((oneBit .seeking .untriggered 50 0).reg 0) 3000 ∧
    ((oneBit .settled .untriggered 100 100).reg 0).tgt.val ≠ 0 ∧
    EdgeSample ((oneBit .settled .untriggered 100 100).cfg.bit 0) ((oneBit .settled .untriggered 100 100).reg 0) 3000 := by
  decide

/-- V47 (arrived) and V45 (the wrap). -/
theorem witness_HomedBitSeeksUntilArrival :
    (oneBit .seeking .triggered 3189 5).Inv ∧
    ((0#8).toNat < (oneBit .seeking .triggered 3189 5).cfg.n ∧
      (3500#16).toNat < 2 ^ (oneBit .seeking .triggered 3189 5).cfg.sw ∧
      ((oneBit .seeking .triggered 3189 5).reg 0).state ≠ .uninitialized ∧
      ¬ EdgeSample ((oneBit .seeking .triggered 3189 5).cfg.bit 0) ((oneBit .seeking .triggered 3189 5).reg 0) 3500 ∧
      ((oneBit .seeking .triggered 3189 5).reg 0).ssh.val = ((oneBit .seeking .triggered 3189 5).cfg.bit 0).total - 1) ∧
    ((oneBit .seeking .triggered 5 5).reg 0).ssh.val = ((oneBit .seeking .triggered 5 5).reg 0).tgt.val :=
  ⟨inv_wrapping, by decide, by decide⟩

/-- The state after PROCESS 0, 3500 (V46, V47). -/
def afterSample (s : State) : State :=
  match exec (.process 0 3500) s with
  | .next t => t
  | .fault _ => s
  | .refused _ => s

/-- Distance 1: SSH 4, TGT 5 (V46 then V47). -/
theorem witness_BitSettlesAfterExactlyItsDistance :
    ∃ u : Nat → State, (u 0).Inv ∧ (0#8).toNat < (u 0).cfg.n ∧
      1 = (((u 0).reg 0).tgt.val + ((u 0).cfg.bit 0).total - ((u 0).reg 0).ssh.val) % ((u 0).cfg.bit 0).total ∧
      ((u 0).reg 0).state ≠ .uninitialized ∧
      ∀ k, k ≤ 1 → (3500#16).toNat < 2 ^ (u 0).cfg.sw ∧ ¬ EdgeSample ((u 0).cfg.bit 0) ((u k).reg 0) 3500 ∧
        exec (.process 0 3500) (u k) = .next (u (k + 1)) := by
  refine ⟨fun k => afterSample^[k] (oneBit .seeking .triggered 4 5), inv_oneBit, by decide, by decide, by decide, ?_⟩
  intro k hk
  interval_cases k
  · exact ⟨by decide, by decide, rfl⟩
  · exact ⟨by decide, by decide, rfl⟩

/-- The first homing of Config A, HOFF 3 (E2): the edge call and three calls more. -/
theorem witness_FirstHomingTravelsHomeOffset :
    ∃ u : Nat → State, (u 0).Inv ∧ (0#8).toNat < (u 0).cfg.n ∧ ((u 0).reg 0).state = .uninitialized ∧
      EdgeSample ((u 0).cfg.bit 0) ((u 0).reg 0) 3500 ∧
      ∀ k, k ≤ ((u 0).cfg.bit 0).hoff.steps → (3500#16).toNat < 2 ^ (u 0).cfg.sw ∧
        (1 ≤ k → ¬ EdgeSample ((u 0).cfg.bit 0) ((u k).reg 0) 3500) ∧
        exec (.process 0 3500) (u k) = .next (u (k + 1)) := by
  refine ⟨fun k => afterSample^[k] (oneBit .uninitialized .untriggered 0 61), inv_unhomed, by decide, by decide,
    by decide, ?_⟩
  intro k hk
  replace hk : k ≤ 3 := hk
  interval_cases k
  · exact ⟨by decide, by decide, rfl⟩
  · exact ⟨by decide, by decide, rfl⟩
  · exact ⟨by decide, by decide, rfl⟩
  · exact ⟨by decide, by decide, rfl⟩

theorem witness_BitsDoNotInterfere :
    settledC.cfg = halfHomedC.cfg ∧ settledC.Shaped ∧ halfHomedC.Shaped ∧ (1#8).toNat < settledC.cfg.n ∧
    (3000#16).toNat < 2 ^ settledC.cfg.sw ∧ settledC.reg 1 = halfHomedC.reg 1 ∧ settledC.reg 0 ≠ halfHomedC.reg 0 ∧
    (∃ t, exec (.process 1 3000) settledC = .next t) ∧ ∃ t, exec (.process 1 3000) halfHomedC = .next t :=
  ⟨by decide, by decide, by decide, by decide, by decide, by decide, by decide, ⟨_, rfl⟩, _, rfl⟩

theorem witness_SetTargetWritesOnlyTheTarget : settledC.cfg.Legal ∧ (1#8).toNat < settledC.cfg.n := by decide

theorem witness_LastSetTargetWins :
    settledC.Shaped ∧ (1#8).toNat < settledC.cfg.n ∧
    ∃ t, exec (.settgt 1 0x56) settledC = .next t ∧ ∃ u v, exec (.settgt 1 0x48) t = .next u ∧
      exec (.settgt 1 0x48) settledC = .next v :=
  ⟨by decide, by decide, _, rfl, _, _, rfl, rfl⟩

theorem witness_RomBytesStandAtTheirAddresses :
    settledC.cfg.Legal ∧ 1 < settledC.cfg.m ∧ 1 < settledC.cfg.n ∧ settledC.cfg.symtab[54]? = some 0x0D#8 := by decide

theorem witness_AdvanceLoadsNextRow : settledC.Inv ∧ 1 < settledC.cfg.n := ⟨inv_settledC, by decide⟩

theorem witness_PulseEmitsOnePulseAndAnswersClutches : settledC.Shaped ∧ 31 < 32 := by decide

theorem witness_BusyCycleUpdatesClutchesThenPulses :
    halfHomedC.Inv ∧ 0 < halfHomedC.cfg.n ∧
    (processBit (halfHomedC.cfg.bit 0) (halfHomedC.reg 0) (halfHomedC.sampleAt 0)).2 = true :=
  ⟨inv_halfHomedC, by decide, by decide⟩

theorem witness_AllIdleCycleAdvancesTheMessage :
    settledC.Inv ∧
    ∀ i, i < settledC.cfg.n → (processBit (settledC.cfg.bit i) (settledC.reg i) (settledC.sampleAt i)).2 = false :=
  ⟨inv_settledC, by decide⟩

theorem witness_UnhomedBitHoldsTheMessage :
    halfHomedC.Inv ∧ 0 < halfHomedC.cfg.n ∧ (halfHomedC.reg 0).state = .uninitialized ∧
    ¬ EdgeSample (halfHomedC.cfg.bit 0) (halfHomedC.reg 0) (halfHomedC.sampleAt 0) :=
  ⟨inv_halfHomedC, by decide, by decide, by decide⟩

theorem witness_SingleBitCycleIsProcessThenPulse :
    ∃ s t u v : State, s.Inv ∧ s.cfg.n = 1 ∧ exec .cycle s = .next t ∧
      exec (.process 0 (BitVec.ofNat 16 (s.sampleAt 0))) s = .next u ∧ u.rsp = 1 ∧ exec .pulse u = .next v :=
  ⟨oneBit .seeking .triggered 4 5, _, _, _, inv_oneBit, by decide, rfl, rfl, by decide, rfl⟩

/-- Every selector that READ can read, with the largest index its scope allows. -/
theorem witness_ReadAnswersTheSelectedValue :
    settledC.Inv ∧
    ([.state, .sens, .ssh, .tgt, .clutch, .hoff, .trig, .untrig, .spf, .total].all
      fun sel => (Instr.read sel 1).wellFormed settledC.cfg) = true ∧
    ([.msgNext, .ctrl, .status, .nbits, .nrows].all fun sel => (Instr.read sel 0).wellFormed settledC.cfg) = true :=
  ⟨inv_settledC, by decide, by decide⟩

theorem witness_WriteControlZeroStopsTheSequencer :
    ∃ s t : State, s.cfg.Legal ∧ s.boundaryInput.rst = false ∧ s.boundaryInput.cmdValid = true ∧
      s.boundaryInput.cmd = 0x80000000#32 ∧ step s = .next t ∧ t.boundaryInput.rst = false ∧
      t.boundaryInput.cmdValid = false :=
  ⟨{ presenting 0x80000000#32 with ctrl := 1 }, _, by decide, by decide, by decide, by decide, rfl, by decide, by decide⟩

end Sys2Proof.Tests
end

section
/-! The scope's obligations (00_scope.md): what a legal configuration bounds, and where a step is refused. -/

namespace Sys2Proof.Machine

/-! ### One subtraction reduces every sum of `target_for` (41_position_arith.md R127) -/

/-- The flap of an ordinal `k <= 54` starts within one turn, because `TOTAL = SPF * 55` and `SPF >= 1` (R8, R123). -/
theorem deltaMul_lt_total {sw : Nat} {b : BitConfig} (h : b.Legal sw) {k : Nat} (hk : k ≤ 54) :
    (deltaMul b.spf k).steps < b.total := by
  obtain ⟨hspf, -⟩ := h
  have hk55 : k < nsym := Nat.lt_succ_of_le hk
  exact Nat.mul_lt_mul_of_pos_left hk55 hspf

/-- HOFF and the flap's offset are each below TOTAL, so their sum is below two turns. -/
theorem targetSum_lt_two_total {sw : Nat} {b : BitConfig} (h : b.Legal sw) {k : Nat} (hk : k ≤ 54) :
    b.hoff.steps + (deltaMul b.spf k).steps < 2 * b.total := by
  have hoff := (legal_total h).2.2
  have hmul := deltaMul_lt_total h hk
  omega

/-- Settles O24: both summands of the sum are below TOTAL, and a remainder of a number below `2 * TOTAL` is that
number or that number less TOTAL. -/
theorem oneSubtractionReducesEverySum : Obligations.OneSubtractionReducesEverySum := by
  intro sw b k h hk
  refine ⟨deltaMul_lt_total h hk, targetSum_lt_two_total h hk, ?_⟩
  have hsum : b.hoff.steps + b.spf.steps * k < 2 * b.total := targetSum_lt_two_total h hk
  rw [targetFor_val h]
  split
  case isTrue hlt => exact Nat.mod_eq_of_lt hlt
  case isFalse hge =>
    rw [Nat.mod_eq_sub_mod (Nat.le_of_not_lt hge)]
    exact Nat.mod_eq_of_lt (by omega)

/-! ### Illegal configurations (00_scope.md R13) -/

/-- Settles O14: `step` tests the configuration before it reads the boundary. -/
theorem illegalConfigurationIsRefused : Obligations.IllegalConfigurationIsRefused :=
  fun _ h => step_of_illegal h

/-! ### Sample ports (00_scope.md R9, 10_state.md R40) -/

/-- Settles O40: a port passes the low SW bits of its value, script entry and free value alike. -/
theorem samplesFitTheirPorts : Obligations.SamplesFitTheirPorts :=
  fun s _ => Nat.mod_lt _ (Nat.two_pow_pos s.cfg.sw)

end Sys2Proof.Machine
end

section
/-! The registers of the SFC (10_state.md): which command writes which register, and with what. The invariant every
step keeps, homing and the error record are read off that one account. -/

namespace Sys2Proof.Machine

/-! ### What a command can write -/

/-- The registers of a bit after `process` and the write of its clutch at the need (43_bit_controller.md R158,
44_coordinator.md R182). -/
def drivenBit (c : BitConfig) (r : BitRegs) (smp : Nat) : BitRegs :=
  { (processBit c r smp).1 with clutch := (processBit c r smp).2 }

/-- What a host command can leave in a bit with registers `r`, rejected forms included (the "Writers" of 10_state.md
R21 to R25). -/
inductive BitWrite (cfg : Config) (c : BitConfig) (r : BitRegs) : Instr → BitRegs → Prop where
  | kept (i : Instr) : BitWrite cfg c r i r
  | process (k : Byte) (smp : Half) : BitWrite cfg c r (.process k smp) (drivenBit c r smp.toNat)
  | settgt (k b : Byte) : BitWrite cfg c r (.settgt k b) (setTargetBit cfg c r b)
  | advance (b : Byte) : BitWrite cfg c r .advance (setTargetBit cfg c r b)
  | busyCycle (smp : Nat) : BitWrite cfg c r .cycle (drivenBit c r smp)
  | idleCycle (smp : Nat) (b : Byte) : BitWrite cfg c r .cycle (setTargetBit cfg c (drivenBit c r smp) b)

/-- What a host command can write of the SFC's registers other than RSP (the "Writers" of 10_state.md R21 to R25 and
R30 to R32). The register file is spoken of where it has one entry a bit. -/
structure RegisterWrites (i : Instr) (s t : State) : Prop where
  cfg     : t.cfg = s.cfg
  length  : s.Shaped → t.bits.length = s.bits.length
  bit     : s.Shaped → ∀ j, j < s.cfg.n → BitWrite s.cfg (s.cfg.bit j) (s.reg j) i (t.reg j)
  msgNext : t.msgNext = s.msgNext ∨ (i = .cycle ∨ i = .advance) ∧ t.msgNext = (advance s).msgNext
  ctrl    : t.ctrl = s.ctrl ∨ ∃ v, i = .wrctl v ∧ t.ctrl = ctrlWithRun s.ctrl v
  status  : t.status = s.status ∨ (∃ e, t.status = statusRejected s.status (errCode e)) ∨
              i = .cycle ∧ ∃ idle, t.status = statusWithIdle s.status idle
  stepOut : t.stepOut = s.stepOut ∨ t.stepOut = false

/-- The register file after PROCESS: bit `k` driven, every other bit as it was (43_bit_controller.md R150, R158). -/
theorem processCommand_bits (k smp : Nat) (s : State) :
    (processCommand k smp s).bits = s.bits.set k (drivenBit (s.cfg.bit k) (s.reg k) smp) := by
  by_cases hk : k < s.bits.length
  · rw [processCommand_eq hk]; rfl
  · simp [processCommand, List.set_eq_of_length_le (Nat.le_of_not_lt hk)]

/-- A write of bit `k` writes that bit, and keeps every other one. -/
theorem bitWrite_of_set {i : Instr} {k : Nat} {r : BitRegs} {s t : State} (hb : t.bits = s.bits.set k r)
    (hk : BitWrite s.cfg (s.cfg.bit k) (s.reg k) i r) (hs : s.Shaped) (j : Nat) (hj : j < s.cfg.n) :
    BitWrite s.cfg (s.cfg.bit j) (s.reg j) i (t.reg j) := by
  by_cases hjk : j = k
  · subst hjk
    rw [State.reg_set_self hb (hs ▸ hj)]
    exact hk
  · rw [State.reg_set_ne hb hjk]
    exact .kept i

namespace RegisterWrites

/-- Writing nothing. An operation that writes RSP or the outputs alone differs from it in no field. -/
theorem refl (i : Instr) (s : State) : RegisterWrites i s s where
  cfg     := rfl
  length  := fun _ => rfl
  bit     := fun _ _ _ => .kept i
  msgNext := .inl rfl
  ctrl    := .inl rfl
  status  := .inl rfl
  stepOut := .inl rfl

theorem of_reject (i : Instr) (e : CmdError) (s : State) : RegisterWrites i s (s.reject e) :=
  { refl i s with status := .inr (.inl ⟨e, rfl⟩) }

theorem of_process (k : Byte) (smp : Half) (s : State) :
    RegisterWrites (.process k smp) s (processCommand k.toNat smp.toNat s) :=
  { refl (.process k smp) s with
    length := fun _ => by simp [processCommand_bits]
    bit := bitWrite_of_set (processCommand_bits k.toNat smp.toNat s) (.process k smp) }

theorem of_settgt (k b : Byte) (s : State) : RegisterWrites (.settgt k b) s (setTargetCommand k.toNat b s) :=
  { refl (.settgt k b) s with
    length := fun _ => by simp [setTargetCommand]
    bit := bitWrite_of_set rfl (.settgt k b) }

theorem of_advance (s : State) : RegisterWrites .advance s (advance s) :=
  { refl .advance s with
    length := fun hs => (advance_length hs).trans hs.symm
    bit := fun hs j hj => by rw [advance_reg hs hj]; exact .advance _
    msgNext := .inr ⟨.inr rfl, rfl⟩ }

theorem of_pulse (s : State) : RegisterWrites .pulse s s.emitPulse :=
  { refl .pulse s with stepOut := .inr rfl }

theorem of_wrctl (v : Bool) (s : State) : RegisterWrites (.wrctl v) s (writeControl v s) :=
  { refl (.wrctl v) s with ctrl := .inr ⟨v, rfl, rfl⟩ }

/-- A control cycle, whoever issues it (44_coordinator.md R186). -/
theorem of_cycle (s : State) : RegisterWrites .cycle s (cycleBody s) where
  cfg     := cycleBody_cfg s
  length  := fun hs => (cycleBody_length hs).trans hs.symm
  bit     := fun hs j hj => by
    rw [cycleBody_reg hs hj, cyclePulse_reg hs hj]
    split
    · exact .idleCycle _ _
    · exact .busyCycle _
  msgNext := by
    rcases cycleBody_cases s with ⟨-, e⟩ | ⟨-, e⟩ <;> rw [e]
    · exact .inl rfl
    · exact .inr ⟨.inl rfl, rfl⟩
  ctrl    := .inl (cycleBody_ctrl s)
  status  := .inr (.inr ⟨rfl, _, cycleBody_status s⟩)
  stepOut := .inr (cycleBody_stepOut s)

/-- A response writes RSP, which is none of these registers. -/
theorem respond {i : Instr} {s t : State} (h : RegisterWrites i s t) (v : Word) :
    RegisterWrites i s (t.respond v) :=
  { h with }

end RegisterWrites

/-- What a host command can write, rejected or not. -/
theorem exec_registerWrites {i : Instr} {s t : State} (h : exec i s = .next t) : RegisterWrites i s t := by
  rcases exec_cases h with ⟨e, -, rfl⟩ | ⟨-, ht⟩
  · exact .of_reject i e s
  · cases i <;> dsimp only at ht <;> subst ht
    case nop | lookup | read => exact (RegisterWrites.refl _ s).respond _
    case cycle => exact (RegisterWrites.of_cycle s).respond _
    case process k smp => exact .of_process k smp s
    case settgt k b => exact .of_settgt k b s
    case advance => exact (RegisterWrites.of_advance s).respond _
    case pulse => exact (RegisterWrites.of_pulse s).respond _
    case wrctl v => exact .of_wrctl v s

/-- A step without `rst` writes what some command can write: the sequencer's operation writes what CYCLE can, and a
word that is no command is rejected. -/
theorem step_registerWrites {s t : State} (h : step s = .next t) (hr : s.boundaryInput.rst = false) :
    ∃ i, RegisterWrites i s t := by
  obtain ⟨-, hcases⟩ := step_cases h
  rcases hcases with ⟨hr', -⟩ | ⟨-, -, i, -, he⟩ | ⟨-, -, e, -, rfl⟩ | ⟨-, -, -, rfl⟩ | ⟨-, -, -, rfl⟩
  · rw [hr] at hr'; cases hr'
  · exact ⟨i, { exec_registerWrites he with }⟩
  · exact ⟨.nop, { RegisterWrites.of_reject .nop e s.openBoundary with }⟩
  · exact ⟨.cycle, { RegisterWrites.of_cycle s.openBoundary with }⟩
  · exact ⟨.nop, { RegisterWrites.refl .nop s with }⟩

/-! ### The invariant -/

/-- The constants of a bit of a legal SFC are legal (00_scope.md R8). -/
theorem legal_bit {c : Config} (h : c.Legal) {j : Nat} (hj : j < c.n) : (c.bit j).Legal c.sw := by
  obtain ⟨-, -, -, -, -, hbits, -⟩ := h
  exact hbits _ (bit_mem hj)

/-- The number of rows of a legal SFC's message ROM (00_scope.md R11). -/
theorem legal_rows {c : Config} (h : c.Legal) : 1 ≤ c.m ∧ c.m ≤ 2 ^ 16 := h.2.2.1

theorem State.Inv.bitInv {s : State} (h : s.Inv) {j : Nat} (hj : j < s.cfg.n) : BitInv (s.cfg.bit j) (s.reg j) :=
  ⟨(h.positions j hj).1, (h.positions j hj).2, h.unhomed j hj⟩

/-- CLUTCH is no part of a bit's invariant, so driving a bit keeps what `process` keeps. -/
theorem drivenBit_keeps {sw : Nat} {c : BitConfig} (hc : c.Legal sw) {r : BitRegs} (h : BitInv c r) (smp : Nat) :
    BitInv c (drivenBit c r smp) ∧ (r.state ≠ .uninitialized → (drivenBit c r smp).state ≠ .uninitialized) :=
  processBit_keeps hc h smp

namespace BitWrite

/-- Whatever a command leaves in a bit meets the bit's invariant, and a homed bit stays homed. -/
theorem keeps {cfg : Config} {sw : Nat} {c : BitConfig} {r r' : BitRegs} {i : Instr} (hw : BitWrite cfg c r i r')
    (hc : c.Legal sw) (h : BitInv c r) :
    BitInv c r' ∧ (r.state ≠ .uninitialized → r'.state ≠ .uninitialized) := by
  cases hw with
  | kept => exact ⟨h, id⟩
  | process k smp => exact drivenBit_keeps hc h smp.toNat
  | settgt k b => exact ⟨setTargetBit_keeps hc h b, id⟩
  | advance b => exact ⟨setTargetBit_keeps hc h b, id⟩
  | busyCycle smp => exact drivenBit_keeps hc h smp
  | idleCycle smp b =>
    obtain ⟨hinv, hhomed⟩ := drivenBit_keeps hc h smp
    exact ⟨setTargetBit_keeps hc hinv b, hhomed⟩

/-- Only PROCESS and CYCLE write STATE, SENS, SSH and CLUTCH; TGT is also written by SETTGT and ADVANCE. -/
theorem keeps_of_no_writer {cfg : Config} {c : BitConfig} {r r' : BitRegs} {i : Instr} (hw : BitWrite cfg c r i r')
    (hp : ∀ k smp, i ≠ .process k smp) (hcyc : i ≠ .cycle) :
    r'.state = r.state ∧ r'.sens = r.sens ∧ r'.ssh = r.ssh ∧ r'.clutch = r.clutch ∧
      ((∀ k b, i ≠ .settgt k b) → i ≠ .advance → r'.tgt = r.tgt) := by
  cases hw with
  | kept => exact ⟨rfl, rfl, rfl, rfl, fun _ _ => rfl⟩
  | process k smp => exact absurd rfl (hp k smp)
  | settgt k b => exact ⟨rfl, rfl, rfl, rfl, fun ht _ => absurd rfl (ht k b)⟩
  | advance b => exact ⟨rfl, rfl, rfl, rfl, fun _ ha => absurd rfl ha⟩
  | busyCycle | idleCycle => exact absurd rfl hcyc

end BitWrite

/-- The codes of 60_exceptions.md R221. -/
theorem errCode_range (e : CmdError) : 1 ≤ (errCode e).toNat ∧ (errCode e).toNat ≤ 5 := by
  cases e <;> decide

/-- A rejection leaves a valid error record: its own code, or the code that stood there (R222). -/
theorem errorRecordValid_of_rejected {s t : State} (h : s.ErrorRecordValid) {e : CmdError}
    (ht : t.status = statusRejected s.status (errCode e)) : t.ErrorRecordValid := by
  unfold State.ErrorRecordValid at h ⊢
  rw [ht, statusErr_statusRejected, statusErrCode_statusRejected, if_pos rfl]
  split
  case isTrue herr => rwa [if_pos herr] at h
  case isFalse => exact errCode_range e

/-- ERR and ERRCODE are all that the error record reads. -/
theorem errorRecordValid_of_eq {s t : State} (h : s.ErrorRecordValid) (herr : statusErr t.status = statusErr s.status)
    (hcode : statusErrCode t.status = statusErrCode s.status) : t.ErrorRecordValid := by
  unfold State.ErrorRecordValid at h ⊢
  rwa [herr, hcode]

namespace RegisterWrites

variable {i : Instr} {s t : State}

theorem keeps_reserved (hw : RegisterWrites i s t) (h : s.ReservedBitsZero) : t.ReservedBitsZero := by
  obtain ⟨hctrl, hstatus⟩ := h
  constructor
  · rcases hw.ctrl with e | ⟨v, -, e⟩ <;> rw [e]
    · exact hctrl
    · exact ctrlWithRun_reserved v hctrl
  · rcases hw.status with e | ⟨err, e⟩ | ⟨-, idle, e⟩ <;> rw [e]
    · exact hstatus
    · exact statusRejected_reserved _ hstatus
    · exact statusWithIdle_reserved idle hstatus

theorem keeps_errors (hw : RegisterWrites i s t) (h : s.ErrorRecordValid) : t.ErrorRecordValid := by
  rcases hw.status with e | ⟨err, e⟩ | ⟨-, idle, e⟩
  · exact errorRecordValid_of_eq h (by rw [e]) (by rw [e])
  · exact errorRecordValid_of_rejected h e
  · exact errorRecordValid_of_eq h (by rw [e, statusErr_statusWithIdle]) (by rw [e, statusErrCode_statusWithIdle])

/-- MSG_NEXT stays below M: it is kept, or moves to the next row modulo M (10_state.md R30). -/
theorem keeps_row (hw : RegisterWrites i s t) (hl : s.cfg.Legal) (h : s.msgNext.toNat < s.cfg.m) :
    t.msgNext.toNat < s.cfg.m := by
  obtain ⟨hpos, hfits⟩ := legal_rows hl
  rcases hw.msgNext with e | ⟨-, e⟩ <;> rw [e]
  · exact h
  · rw [advance_msgNext hpos hfits]
    exact Nat.mod_lt _ hpos

/-- Whatever a command writes, the invariant is kept. -/
theorem keeps_inv (hw : RegisterWrites i s t) (h : s.Inv) : t.Inv := by
  have hbit : ∀ j, j < s.cfg.n → BitInv (s.cfg.bit j) (t.reg j) := fun j hj =>
    ((hw.bit h.shaped j hj).keeps (legal_bit h.legal hj) (h.bitInv hj)).1
  exact {
    legal := hw.cfg ▸ h.legal
    shaped := by rw [State.Shaped, hw.cfg, hw.length h.shaped]; exact h.shaped
    positions := by rw [State.PositionsInRange, hw.cfg]; exact fun j hj => ⟨(hbit j hj).1, (hbit j hj).2.1⟩
    row := by rw [hw.cfg]; exact hw.keeps_row h.legal h.row
    reserved := hw.keeps_reserved h.reserved
    errors := hw.keeps_errors h.errors
    unhomed := by rw [State.UnhomedAtZero, hw.cfg]; exact fun j hj => (hbit j hj).2.2
    stepLow := by
      rcases hw.stepOut with e | e
      · rw [e]; exact h.stepLow
      · exact e }

end RegisterWrites

@[simp] theorem State.resetWith_ctrl (c : Config) : (State.resetWith c).ctrl = 1 := rfl
@[simp] theorem State.resetWith_status (c : Config) : (State.resetWith c).status = 0 := rfl

/-- The reset state of a legal configuration meets the invariant (70_reset_and_hazards.md R251). -/
theorem resetWith_inv {c : Config} (hl : c.Legal) : (State.resetWith c).Inv := by
  have hbit : ∀ j, j < c.n → BitInv (c.bit j) ((State.resetWith c).reg j) := fun j hj => by
    have htotal := (legal_total (legal_bit hl hj)).1
    rw [resetWith_reg hj]
    have hhome : StepPos.home.val < (c.bit j).total := by
      rw [show StepPos.home.val = 0 from rfl]; omega
    exact ⟨hhome, hhome, fun _ => rfl⟩
  exact {
    legal := hl
    shaped := List.length_map ..
    positions := fun j hj => ⟨(hbit j hj).1, (hbit j hj).2.1⟩
    row := (legal_rows hl).1
    reserved := ⟨by rw [State.resetWith_ctrl]; decide, by rw [State.resetWith_status]; decide⟩
    errors := by rw [State.ErrorRecordValid, State.resetWith_status]; decide
    unhomed := fun j hj => (hbit j hj).2.2
    stepLow := rfl }

/-- Reset keeps what the environment will put on the input pins, which is no register. -/
theorem applyReset_inv {s : State} (hl : s.cfg.Legal) : s.applyReset.Inv :=
  { resetWith_inv hl with }

/-- Settles O17: a step is a reset, whose state meets the invariant, or it writes what a command can write, which keeps
the invariant. -/
theorem stepKeepsInvariant : Obligations.StepKeepsInvariant := by
  intro s t h hstep
  cases hr : s.boundaryInput.rst with
  | true =>
    obtain ⟨hl, ⟨-, rfl⟩ | ⟨hr', -⟩ | ⟨hr', -⟩ | ⟨hr', -⟩ | ⟨hr', -⟩⟩ := step_cases hstep
    · exact applyReset_inv (s := s.openBoundary) hl
    all_goals rw [hr] at hr'; cases hr'
  | false =>
    obtain ⟨i, hw⟩ := step_registerWrites hstep hr
    exact hw.keeps_inv h

/-! ### Homing, the error record and the writers -/

/-- Settles O18: no command takes a homed bit back to Uninitialized (43_bit_controller.md R156). -/
theorem homedBitStaysHomed : Obligations.HomedBitStaysHomed := by
  intro s t h hstep hr j hj
  obtain ⟨i, hw⟩ := step_registerWrites hstep hr
  exact ((hw.bit h.shaped j hj).keeps (legal_bit h.legal hj) (h.bitInv hj)).2

/-- Settles O7: STATUS is kept, written by a rejection that finds ERR set, or written in IDLE alone. -/
theorem errorRecordIsSticky : Obligations.ErrorRecordIsSticky := by
  intro s t hstep hr herr
  obtain ⟨i, hw⟩ := step_registerWrites hstep hr
  rcases hw.status with e | ⟨err, e⟩ | ⟨-, idle, e⟩ <;> rw [e]
  · exact ⟨herr, rfl⟩
  · exact ⟨statusErr_statusRejected _ _, by rw [statusErrCode_statusRejected, if_pos herr]⟩
  · exact ⟨by rw [statusErr_statusWithIdle, herr], statusErrCode_statusWithIdle _ _⟩

/-- Settles O20: each register's writers are those of `RegisterWrites`, and a rejection does not write IDLE. -/
theorem registersAreWrittenOnlyByTheirWriters : Obligations.RegistersAreWrittenOnlyByTheirWriters := by
  intro i s t hs hexec
  have hw := exec_registerWrites hexec
  refine ⟨hw.length hs, fun hp hcyc j hj => (hw.bit hs j hj).keeps_of_no_writer hp hcyc, fun hcyc hadv => ?_,
    fun hwr => ?_, fun hcyc => ?_⟩
  · rcases hw.msgNext with e | ⟨hi | hi, -⟩
    · exact e
    · exact absurd hi hcyc
    · exact absurd hi hadv
  · rcases hw.ctrl with e | ⟨v, hi, -⟩
    · exact e
    · exact absurd hi (hwr v)
  · rcases hw.status with e | ⟨err, e⟩ | ⟨hi, -⟩
    · rw [e]
    · rw [e, statusIdle_statusRejected]
    · exact absurd hi hcyc

end Sys2Proof.Machine
end

section
/-! The outputs of a command, the sequencer's CYCLE beside the host's, and the independence of the bits (10_state.md
R28, R33, R43). -/

namespace Sys2Proof.Machine

/-! ### One `cmd_done` a command -/

/-- A command's own output events: those before it, then some without `cmd_done`, then one `cmd_done` (R43). -/
def EndsWithOneCmdDone (s t : State) : Prop :=
  ∃ evs : List OutEvent, t.out = s.out ++ evs ++ [.cmdDone] ∧ .cmdDone ∉ evs

/-- A response ends a command whose operation has put out no `cmd_done` itself. -/
theorem respond_endsWithOneCmdDone {s u : State} {evs : List OutEvent} (hout : u.out = s.out ++ evs)
    (hevs : .cmdDone ∉ evs) (v : Word) : EndsWithOneCmdDone s (u.respond v) :=
  ⟨evs, by rw [State.respond_out, hout], hevs⟩

/-- An operation that puts out nothing of its own, then the response. -/
theorem respond_silent {s u : State} (hout : u.out = s.out) (v : Word) : EndsWithOneCmdDone s (u.respond v) :=
  respond_endsWithOneCmdDone (evs := []) (by simpa using hout) (List.not_mem_nil) v

/-- A control cycle puts out no `cmd_done` (44_coordinator.md R181 to R186). -/
theorem cycleBody_out (s : State) :
    ∃ evs : List OutEvent, (cycleBody s).out = s.out ++ evs ∧ .cmdDone ∉ evs := by
  rcases cycleBody_cases s with ⟨-, e⟩ | ⟨-, e⟩ <;> rw [e]
  · exact ⟨_, cyclePulse_out s, by simp⟩
  · rw [advance_out, State.wait_out]
    refine ⟨[.clutchEn (cycleNeeds s), .step true, .wait s.cfg.pulseWidth, .step false, .wait s.cfg.settleDelay],
      ?_, by simp⟩
    show (cyclePulse s).out ++ [.wait s.cfg.settleDelay] = _
    rw [cyclePulse_out]
    simp

/-- What a host command puts out. -/
theorem exec_endsWithOneCmdDone {i : Instr} {s t : State} (h : exec i s = .next t) : EndsWithOneCmdDone s t := by
  rcases exec_cases h with ⟨e, -, rfl⟩ | ⟨-, ht⟩
  · exact respond_silent rfl _
  · cases i <;> dsimp only at ht <;> subst ht
    case nop | lookup | read | wrctl | settgt | advance => exact respond_silent rfl _
    case process => exact respond_endsWithOneCmdDone (State.setClutch_out ..) (by simp) _
    case pulse => exact 
      respond_endsWithOneCmdDone (evs := pulseEvents s.cfg.pulseWidth) (by simp [pulseEvents]) (by simp [pulseEvents]) _
    case cycle =>
      obtain ⟨evs, hout, hevs⟩ := cycleBody_out s
      exact respond_endsWithOneCmdDone hout hevs _

/-- Settles O21: a word is a command, or it is rejected; either way the response comes last, and once. -/
theorem everyCommandEndsWithOneCmdDone : Obligations.EveryCommandEndsWithOneCmdDone := by
  intro w s
  obtain ⟨t, ht, evs, hout, hevs⟩ : ∃ t, runWord w s = .next t ∧ EndsWithOneCmdDone s t := by
    cases hd : decode w with
    | error e => exact ⟨s.reject e, by rw [runWord, hd], respond_silent rfl _⟩
    | ok i =>
      obtain ⟨t, ht⟩ := exec_next i s
      exact ⟨t, by rw [runWord, hd]; exact ht, exec_endsWithOneCmdDone ht⟩
  exact ⟨t, evs, ht, hout, hevs⟩

/-! ### The sequencer's CYCLE (44_coordinator.md R186, R190, R191) -/

/-- With RUN = 1 and no command the step is the sequencer's CYCLE. -/
theorem step_sequencerCycle {s : State} (hl : s.cfg.Legal) (hr : s.boundaryInput.rst = false)
    (hv : s.boundaryInput.cmdValid = false) (hc : ctrlRun s.ctrl = true) :
    step s = .next (cycleBody s.openBoundary) := by
  rw [step_of_legal hl]
  simp [runBoundary, hr, hv, runSequencer, hc, sequencerCycle]

/-- Taking a response back: RSP as it was, and the last output, the `cmd_done`, dropped. -/
theorem respond_undo (s : State) (v : Word) :
    { s.respond v with rsp := s.rsp, out := (s.respond v).out.dropLast } = s := by
  rw [State.respond_out, List.dropLast_concat]
  rfl

/-- Settles O10: the host's CYCLE is the sequencer's followed by the response. -/
theorem sequencerRunsCycleWithoutResponse : Obligations.SequencerRunsCycleWithoutResponse := by
  intro s hl hr hv hc
  refine ⟨_, rfl, ?_, ?_⟩
  · rw [State.respond_out, List.dropLast_concat]
  · rw [step_sequencerCycle hl hr hv hc]
    have hundo := respond_undo (cycleBody s.openBoundary) (State.packBits (cycleNeeds s.openBoundary))
    rw [cycleBody_rsp, State.openBoundary_rsp] at hundo
    rw [hundo]

/-! ### PROCESS and the other bits -/

/-- PROCESS on operands that pass its checks drives bit `i` alone and answers its need (43_bit_controller.md R158). -/
theorem exec_process_bits_rsp {s t : State} {i : Byte} {smp : Half} (hi : i.toNat < s.cfg.n)
    (hsmp : smp.toNat < 2 ^ s.cfg.sw) (h : exec (.process i smp) s = .next t) :
    t.bits = s.bits.set i.toNat (drivenBit (s.cfg.bit i.toNat) (s.reg i.toNat) smp.toNat) ∧
      t.rsp = boolWord (processBit (s.cfg.bit i.toNat) (s.reg i.toNat) smp.toNat).2 := by
  rcases exec_cases h with ⟨e, he, -⟩ | ⟨-, ht⟩
  · rw [operandError, processError_none hi hsmp] at he; cases he
  · dsimp only at ht
    subst ht
    exact ⟨processCommand_bits _ _ s, rfl⟩

/-- Settles O34: the bit's new registers and the answer are functions of its constants, its registers and the sample. -/
theorem bitsDoNotInterfere : Obligations.BitsDoNotInterfere := by
  intro s s' t t' i smp hcfg hs hs' hi hsmp hreg ht ht'
  obtain ⟨hbits, hrsp⟩ := exec_process_bits_rsp hi hsmp ht
  obtain ⟨hbits', hrsp'⟩ := exec_process_bits_rsp (hcfg ▸ hi) (hcfg ▸ hsmp) ht'
  refine ⟨?_, ?_, fun j hj => ⟨State.reg_set_ne hbits hj, State.reg_set_ne hbits' hj⟩⟩
  · rw [State.reg_set_self hbits (hs ▸ hi), State.reg_set_self hbits' (hs' ▸ hcfg ▸ hi), hcfg, hreg]
  · rw [hrsp, hrsp', hcfg, hreg]

end Sys2Proof.Machine
end

section
/-! The memory of the SFC (20_memory.md): the configuration that no step writes, the bytes of the two ROMs at their
addresses, and the registers and constants as READ answers them. -/

namespace Sys2Proof.Machine

/-! ### No step writes the configuration (20_memory.md R62, 10_state.md R45) -/

/-- Settles O19: reset keeps the configuration, and no command has it among the registers it writes. -/
theorem configurationNeverChanges : Obligations.ConfigurationNeverChanges := by
  intro s t hstep
  cases hr : s.boundaryInput.rst with
  | true =>
    obtain ⟨-, ⟨-, rfl⟩ | ⟨hr', -⟩ | ⟨hr', -⟩ | ⟨hr', -⟩ | ⟨hr', -⟩⟩ := step_cases hstep
    · rfl
    all_goals rw [hr] at hr'; cases hr'
  | false =>
    obtain ⟨i, hw⟩ := step_registerWrites hstep hr
    exact hw.cfg

/-! ### The ROMs (20_memory.md R60, R61) -/

/-- Inside the message ROM address `r*N + col` selects row `r` and, in it, column `col`. -/
theorem memRead_msg {c : Config} {r col : Nat} {b : Byte} (hcol : col < c.n)
    (h : (c.msgs[r]?.bind (·[col]?)) = some b) : memRead c .msg (r * c.n + col) = b := by
  have hn : 0 < c.n := Nat.zero_lt_of_lt hcol
  have hrow : (r * c.n + col) / c.n = r := by
    rw [Nat.mul_comm, Nat.mul_add_div hn, Nat.div_eq_of_lt hcol, Nat.add_zero]
  have hcolumn : (r * c.n + col) % c.n = col := Nat.mul_add_mod_of_lt hcol
  simp [memRead, hrow, hcolumn, h]

/-- The message ROM of a legal SFC has a byte at every row below M and column below N (00_scope.md R11). -/
theorem legal_msgs_getElem? {c : Config} (hl : c.Legal) {r col : Nat} (hr : r < c.m) (hcol : col < c.n) :
    ∃ b, (c.msgs[r]?.bind (·[col]?)) = some b := by
  obtain ⟨-, -, -, -, -, -, hrows⟩ := hl
  have hlen : c.msgs[r].length = c.n := hrows _ (List.getElem_mem hr)
  exact ⟨c.msgs[r][col]'(hlen ▸ hcol), by
    rw [List.getElem?_eq_getElem hr, Option.bind_some, List.getElem?_eq_getElem (hlen ▸ hcol)]⟩

/-- The symbol ROM of a legal SFC has a byte at each of the 55 ordinals (00_scope.md R7). -/
theorem legal_symtab_getElem? {c : Config} (hl : c.Legal) {k : Nat} (hk : k ≤ 54) : ∃ b, c.symtab[k]? = some b := by
  obtain ⟨-, -, -, -, ⟨hlen, -⟩, -⟩ := hl
  have hk' : k < c.symtab.length := hlen ▸ Nat.lt_succ_of_le hk
  exact ⟨_, List.getElem?_eq_getElem hk'⟩

/-- Settles O37: a legal SFC's tables have the byte, and the read at its address gives it. -/
theorem romBytesStandAtTheirAddresses : Obligations.RomBytesStandAtTheirAddresses := by
  refine fun c hl => ⟨fun r col hr hcol => ?_, fun k hk => ?_⟩
  · obtain ⟨b, hb⟩ := legal_msgs_getElem? hl hr hcol
    rw [memRead_msg hcol hb, hb]
  · obtain ⟨b, hb⟩ := legal_symtab_getElem? hl hk
    rw [memRead_sym hb, hb]

/-! ### READ (20_memory.md R67, 45_control_port.md R202) -/

/-- READ of operands that pass R82 answers the selected value and does nothing else. -/
theorem exec_read {s : State} {sel : Selector} {i : Byte} (h : (Instr.read sel i).wellFormed s.cfg = true) :
    exec (.read sel i) s = .next (afterResponse s (readValue sel i.toNat s)) := by
  have hnone : readError s.cfg sel i = none := (readError_none_iff s.cfg sel i).mpr h
  rw [exec, execRead, hnone, checked_none]
  rfl

/-- READ of a per-bit register or constant names a bit of the SFC (30_encoding.md R82). -/
theorem read_index_lt {c : Config} {sel : Selector} {i : Byte} (h : (Instr.read sel i).wellFormed c = true)
    (hp : sel.perBit = some true) : i.toNat < c.n := by
  simpa [Instr.wellFormed, hp] using h

/-- A number up to `2^16` is not cut by the 32-bit response. -/
theorem toNat_word_of_le {x : Nat} (h : x ≤ 2 ^ 16) : (BitVec.ofNat 32 x).toNat = x :=
  Nat.mod_eq_of_lt (by omega)

/-- The constants of a bit that READ can select are at most `2^16`. -/
structure BitConstantsFit (b : BitConfig) : Prop where
  hoff   : b.hoff.steps ≤ 2 ^ 16
  trig   : b.trig ≤ 2 ^ 16
  untrig : b.untrig ≤ 2 ^ 16
  spf    : b.spf.steps ≤ 2 ^ 16
  total  : b.total ≤ 2 ^ 16

/-- TOTAL bounds HOFF and SPF, and the width of the sample port bounds the thresholds (00_scope.md R8, R9). -/
theorem legal_bitConstantsFit {c : Config} (hl : c.Legal) {j : Nat} (hj : j < c.n) : BitConstantsFit (c.bit j) := by
  obtain ⟨-, htotal, hhoff, huntrig, htrig⟩ := legal_bit hl hj
  obtain ⟨-, ⟨-, hsw⟩, -⟩ := hl
  have hport : 2 ^ c.sw ≤ 2 ^ 16 := Nat.pow_le_pow_right (by omega) hsw
  have hspf : (c.bit j).spf.steps ≤ (c.bit j).total := Nat.le_mul_of_pos_right _ (by decide)
  constructor <;> omega

theorem boolWord_toNat (b : Bool) : (boolWord b).toNat = b.toNat := by cases b <;> rfl

/-- Settles O47: the answer is `readValue`, whose registers are zero-extended, whose constants fit the response, and
whose CTRL and STATUS read as they are, their reserved bits being 0. -/
theorem readAnswersTheSelectedValue : Obligations.ReadAnswersTheSelectedValue := by
  intro s sel i h hwf
  obtain ⟨hctrl, hstatus⟩ := h.reserved
  obtain ⟨⟨-, hn⟩, -, ⟨-, hm⟩, -⟩ := h.legal
  have hbit (hp : sel.perBit = some true) := legal_bitConstantsFit h.legal (read_index_lt hwf hp)
  have hhalf (x : Half) : (x.setWidth 32).toNat = x.toNat := BitVec.toNat_setWidth_of_le (by decide)
  refine ⟨readValue sel i.toNat s, exec_read hwf, ?_, ?_, ?_, ?_, ?_, ?_, ?_, ?_, ?_, ?_, ?_, ?_, ?_, ?_, ?_⟩ <;>
    rintro rfl <;> rw [readValue]
  · cases (s.reg i.toNat).state <;> rfl
  · cases (s.reg i.toNat).sens <;> rfl
  · exact hhalf _
  · exact hhalf _
  · exact boolWord_toNat _
  · exact hhalf _
  · exact ctrlRead_of_reserved hctrl
  · exact statusRead_of_reserved hstatus
  · exact toNat_word_of_le (hbit rfl).hoff
  · exact toNat_word_of_le (hbit rfl).trig
  · exact toNat_word_of_le (hbit rfl).untrig
  · exact toNat_word_of_le (hbit rfl).spf
  · rw [toNat_word_of_le (hbit rfl).total, BitConfig.total, nsym, Nat.mul_comm]
  · exact toNat_word_of_le (by omega)
  · exact toNat_word_of_le hm

end Sys2Proof.Machine
end

section
/-! The encoding of commands (30_encoding.md): decode and encode are inverse to each other, the opcode map row by row,
the five checks of a command as the machine makes them, and HALT, the word `WRCTL 0`. -/

namespace Sys2Proof

open Laws

/-! ### The fields of a word built from its fields -/

@[simp] theorem immHigh_cmd32 (o s : BitVec 4) (i : Byte) (m : Half) :
    immHigh (cmd32 o s i m) = m.extractLsb' 8 8 := by
  rw [immHigh_eq, immField_cmd32]

@[simp] theorem immLow_cmd32 (o s : BitVec 4) (i : Byte) (m : Half) :
    immLow (cmd32 o s i m) = m.extractLsb' 0 8 := by
  rw [immLow_eq, immField_cmd32]

@[simp] theorem immAboveBit0_cmd32 (o s : BitVec 4) (i : Byte) (m : Half) :
    immAboveBit0 (cmd32 o s i m) = m.extractLsb' 1 15 := by
  rw [immAboveBit0_eq, immField_cmd32]

@[simp] theorem bit0_cmd32 (o s : BitVec 4) (i : Byte) (m : Half) :
    (cmd32 o s i m).getLsbD 0 = m.getLsbD 0 := by
  rw [bit0_eq, immField_cmd32]

/-- A word whose four fields are known is the word of those fields. -/
theorem cmd32_eq_of_fields {w : Word} {o s : BitVec 4} {i : Byte} {m : Half} (ho : opField w = o)
    (hs : selField w = s) (hi : idxField w = i) (hm : immField w = m) : cmd32 o s i m = w := by
  rw [← ho, ← hs, ← hi, ← hm, cmd32_fields]

theorem immField_of_high_zero {w : Word} (h : immHigh w = 0) : immField w = (immLow w).setWidth 16 := by
  rw [immHigh_eq] at h
  rw [immLow_eq, imm_of_high_zero h]

theorem immField_of_above_zero {w : Word} (h : immAboveBit0 w = 0) :
    immField w = if w.getLsbD 0 then 1 else 0 := by
  rw [immAboveBit0_eq] at h
  rw [bit0_eq, imm_of_above_zero h]

/-! ### The round trips -/

/-- The decoder reads an operation's word back. -/
theorem decode_encode (i : Instr) : decode (encode i) = .ok i := by
  cases i with
  | nop | cycle | advance | pulse => rfl
  | process | settgt | lookup | read => simp [encode, decode, requireZero]
  | wrctl v => cases v <;> rfl

/-- The operation the decoder reads has the word's fields, and the must-be-zero fields are 0, so nothing is lost. -/
theorem encode_of_decode {w : Word} {i : Instr} (h : decode w = .ok i) : encode i = w := by
  have hop {o : BitVec 4} (ho : (opField w).toNat = o.toNat) : opField w = o := BitVec.eq_of_toNat_eq ho
  unfold decode at h
  split at h
  case h_10 => cases h
  all_goals
    rename_i ho
    simp only [requireZero_ok, Bool.and_eq_true, beq_iff_eq, and_assoc] at h
  case h_1 | h_2 | h_6 | h_7 =>
    obtain ⟨hs, hi, hm, rfl⟩ := h
    exact cmd32_eq_of_fields (hop ho) hs hi hm
  case h_3 =>
    obtain ⟨hs, rfl⟩ := h
    exact cmd32_eq_of_fields (hop ho) hs rfl rfl
  case h_4 =>
    obtain ⟨hs, hh, rfl⟩ := h
    exact cmd32_eq_of_fields (hop ho) hs rfl (immField_of_high_zero hh)
  case h_5 =>
    obtain ⟨hs, hi, hh, rfl⟩ := h
    exact cmd32_eq_of_fields (hop ho) hs hi (immField_of_high_zero hh)
  case h_8 =>
    obtain ⟨hm, rfl⟩ := h
    exact cmd32_eq_of_fields (hop ho) (selectorCode_selectorOf _).symm rfl hm
  case h_9 =>
    obtain ⟨hs, hi, hb, rfl⟩ := h
    exact cmd32_eq_of_fields (hop ho) hs hi (immField_of_above_zero hb)

theorem decode_eq_ok_iff {w : Word} {i : Instr} : decode w = .ok i ↔ encode i = w :=
  ⟨encode_of_decode, fun h => h ▸ decode_encode i⟩

/-- Settles O1: every field of the encoding is read back, READ's selector from its code. -/
theorem decodeOfEncodeIsIdentity : Obligations.DecodeOfEncodeIsIdentity := decode_encode

/-- Settles O2: each bit of the word is OP, an operand, or a must-be-zero bit the decoder checked. -/
theorem acceptedWordIsItsEncoding : Obligations.AcceptedWordIsItsEncoding := fun _ _ => encode_of_decode

/-- Settles O4: each word is the encoding of its operation. -/
theorem writtenOutWordsDecode : Obligations.WrittenOutWordsDecode :=
  ⟨decode_encode .nop, decode_encode .cycle, decode_encode (.process 0 3000), decode_encode (.settgt 0 0x41),
    decode_encode (.lookup 0x48), decode_encode .advance, decode_encode .pulse, decode_encode (.read .tgt 1),
    decode_encode (.wrctl true)⟩

/-! ### Checks 1 and 2, the decoder's (60_exceptions.md R223) -/

/-- A word under a mask that leaves OP out is 0 exactly when each other field is 0 under its part of the mask. -/
theorem masked_cmd32_eq_zero_iff (w : Word) (s : BitVec 4) (i : Byte) (m : Half) :
    w &&& cmd32 0 s i m = 0 ↔ selField w &&& s = 0 ∧ idxField w &&& i = 0 ∧ immField w &&& m = 0 := by
  rw [masked_eq_zero_iff]
  simp

/-- The must-be-zero bits field by field: SEL but for READ, IDX where the operation names no bit, and what IMM does not
carry of an operand (30_encoding.md R82, R84). -/
theorem mustBeZero_eq_cmd32 {op : Nat} (h : op ≤ 8) :
    Machine.mustBeZero op =
      cmd32 0 (if op = 7 then 0 else .allOnes 4) (if op = 2 ∨ op = 3 ∨ op = 7 then 0 else .allOnes 8)
        (if op = 2 then 0 else if op = 3 ∨ op = 4 then 0xFF00#16 else if op = 8 then 0xFFFE#16 else .allOnes 16) := by
  interval_cases op <;> rfl

/-- The decoder accepts a word exactly when it passes checks 1 and 2 on its own bits. -/
theorem decode_ok_iff_mustBeZero {w : Word} :
    (∃ i, decode w = .ok i) ↔ (opField w).toNat ≤ 8 ∧ w &&& Machine.mustBeZero (opField w).toNat = 0 := by
  have hhigh : immField w &&& 0xFF00#16 = 0#16 ↔ immHigh w = 0#8 := imm_high_masked_iff w
  have habove : immField w &&& 0xFFFE#16 = 0#16 ↔ immAboveBit0 w = 0#15 := imm_above_masked_iff w
  unfold decode
  split
  case h_10 =>
    simp only [imp_false] at *
    constructor
    · rintro ⟨_, ⟨⟩⟩
    · rintro ⟨h8, -⟩
      omega
  all_goals
    rename_i hop
    rw [hop, mustBeZero_eq_cmd32 (by decide), masked_cmd32_eq_zero_iff]
    simp [-BitVec.reduceAllOnes, requireZero_ok, hhigh, habove, and_assoc]

/-- An error of the decoder is check 1's, by OP, or check 2's. -/
theorem decode_error_cases {w : Word} {e : CmdError} (h : decode w = .error e) :
    (e = .illegalOp ∧ 9 ≤ (opField w).toNat) ∨ (e = .rsvdField ∧ (opField w).toNat ≤ 8) := by
  unfold decode at h
  split at h
  case h_10 =>
    simp only [imp_false] at *
    cases h
    exact .inl ⟨rfl, by omega⟩
  all_goals
    obtain ⟨-, rfl⟩ := requireZero_error.mp h
    exact .inr ⟨rfl, by omega⟩

theorem decode_illegalOp_iff {w : Word} : decode w = .error .illegalOp ↔ 9 ≤ (opField w).toNat := by
  constructor
  · intro h
    obtain ⟨-, h9⟩ | ⟨he, -⟩ := decode_error_cases h
    · exact h9
    · cases he
  · intro h9
    cases hd : decode w with
    | ok i =>
      obtain ⟨h8, -⟩ := decode_ok_iff_mustBeZero.mp ⟨i, hd⟩
      omega
    | error e =>
      obtain ⟨rfl, -⟩ | ⟨-, h8⟩ := decode_error_cases hd
      · rfl
      · omega

theorem decode_rsvdField_iff {w : Word} :
    decode w = .error .rsvdField ↔ (opField w).toNat ≤ 8 ∧ ¬ ∃ i, decode w = .ok i := by
  constructor
  · intro h
    obtain ⟨he, -⟩ | ⟨-, h8⟩ := decode_error_cases h
    · cases he
    · exact ⟨h8, by simp [h]⟩
  · rintro ⟨h8, hok⟩
    cases hd : decode w with
    | ok i => exact absurd ⟨i, hd⟩ hok
    | error e =>
      obtain ⟨-, h9⟩ | ⟨rfl, -⟩ := decode_error_cases hd
      · omega
      · rfl

/-! ### The opcode map by mask and match (30_encoding.md R84) -/

/-- An operation without operands has one word. -/
theorem decode_fixed_iff {w v : Word} {i : Instr} (h : encode i = v) :
    decode w = .ok i ↔ w &&& 0xFFFFFFFF#32 = v := by
  have hall : w &&& 0xFFFFFFFF#32 = w := BitVec.and_allOnes
  rw [decode_eq_ok_iff, h, hall, eq_comm]

theorem decode_process_iff {w : Word} {i : Byte} {smp : Half} :
    decode w = .ok (.process i smp) ↔ w &&& 0xFF000000#32 = 0x20000000#32 ∧ i = idxField w ∧ smp = immField w := by
  rw [decode_eq_ok_iff]
  constructor
  · rintro rfl
    exact ⟨EncodedInRow.process i smp, by simp [encode], by simp [encode]⟩
  · rintro ⟨h, rfl, rfl⟩
    exact cmd32_eq_of_fields (field_of_masked h (by decide)) (field_of_masked h (by decide)) rfl rfl

theorem decode_settgt_iff {w : Word} {i b : Byte} :
    decode w = .ok (.settgt i b) ↔ w &&& 0xFF00FF00#32 = 0x30000000#32 ∧ i = idxField w ∧ b = immLow w := by
  rw [decode_eq_ok_iff]
  constructor
  · rintro rfl
    exact ⟨EncodedInRow.settgt i b, by simp [encode], by simp [encode]⟩
  · rintro ⟨h, rfl, rfl⟩
    exact cmd32_eq_of_fields (field_of_masked h (by decide)) (field_of_masked h (by decide)) rfl
      (immField_of_high_zero (field_of_masked h (by decide)))

theorem decode_lookup_iff {w : Word} {b : Byte} :
    decode w = .ok (.lookup b) ↔ w &&& 0xFFFFFF00#32 = 0x40000000#32 ∧ b = immLow w := by
  rw [decode_eq_ok_iff]
  constructor
  · rintro rfl
    exact ⟨EncodedInRow.lookup b, by simp [encode]⟩
  · rintro ⟨h, rfl⟩
    exact cmd32_eq_of_fields (field_of_masked h (by decide)) (field_of_masked h (by decide))
      (field_of_masked h (by decide)) (immField_of_high_zero (field_of_masked h (by decide)))

theorem decode_read_iff {w : Word} {sel : Selector} {i : Byte} :
    decode w = .ok (.read sel i) ↔
      w &&& 0xF000FFFF#32 = 0x70000000#32 ∧ selectorCode sel = selField w ∧ i = idxField w := by
  rw [decode_eq_ok_iff]
  constructor
  · rintro rfl
    exact ⟨EncodedInRow.read sel i, by simp [encode], by simp [encode]⟩
  · rintro ⟨h, hs, rfl⟩
    exact cmd32_eq_of_fields (field_of_masked h (by decide)) hs.symm rfl (field_of_masked h (by decide))

theorem decode_wrctl_iff {w : Word} {v : Bool} :
    decode w = .ok (.wrctl v) ↔ w &&& 0xFFFFFFFE#32 = 0x80000000#32 ∧ v = w.getLsbD 0 := by
  rw [decode_eq_ok_iff]
  constructor
  · rintro rfl
    exact ⟨EncodedInRow.wrctl v, by cases v <;> rfl⟩
  · rintro ⟨h, rfl⟩
    exact cmd32_eq_of_fields (field_of_masked h (by decide)) (field_of_masked h (by decide))
      (field_of_masked h (by decide)) (immField_of_above_zero (field_of_masked h (by decide)))

/-- An operation's word lies in the operation's row. -/
theorem encode_in_row (i : Instr) : EncodedInRow.Statement i := by
  cases i with
  | nop | cycle | advance | pulse => rfl
  | process i s => exact EncodedInRow.process i s
  | settgt i b => exact EncodedInRow.settgt i b
  | lookup b => exact EncodedInRow.lookup b
  | read sel i => exact EncodedInRow.read sel i
  | wrctl v => exact EncodedInRow.wrctl v

theorem row_mem_opcodeRows (i : Instr) :
    (EncodedInRow.rowMask i, EncodedInRow.rowMatch i) ∈ Machine.opcodeRows := by
  cases i <;> simp [EncodedInRow.rowMask, EncodedInRow.rowMatch, Machine.opcodeRows]

/-- A row matches a word exactly when the decoder accepts it. -/
theorem decode_ok_iff_row {w : Word} :
    (∃ i, decode w = .ok i) ↔ ∃ row ∈ Machine.opcodeRows, w &&& row.1 = row.2 := by
  constructor
  · rintro ⟨i, h⟩
    exact ⟨_, row_mem_opcodeRows i, encode_of_decode h ▸ encode_in_row i⟩
  · rintro ⟨row, hmem, h⟩
    simp only [Machine.opcodeRows, List.mem_cons, List.not_mem_nil, or_false] at hmem
    rcases hmem with rfl | rfl | rfl | rfl | rfl | rfl | rfl | rfl | rfl
    · exact ⟨_, (decode_fixed_iff (i := .nop) rfl).mpr h⟩
    · exact ⟨_, (decode_fixed_iff (i := .cycle) rfl).mpr h⟩
    · exact ⟨_, decode_process_iff.mpr ⟨h, rfl, rfl⟩⟩
    · exact ⟨_, decode_settgt_iff.mpr ⟨h, rfl, rfl⟩⟩
    · exact ⟨_, decode_lookup_iff.mpr ⟨h, rfl⟩⟩
    · exact ⟨_, (decode_fixed_iff (i := .advance) rfl).mpr h⟩
    · exact ⟨_, (decode_fixed_iff (i := .pulse) rfl).mpr h⟩
    · exact ⟨_, decode_read_iff.mpr ⟨h, selectorCode_selectorOf _, rfl⟩⟩
    · exact ⟨_, decode_wrctl_iff.mpr ⟨h, rfl⟩⟩

/-- Settles O3: the rows by the lemma of each operation, the codes because only a word that a row matches is accepted. -/
theorem wordSelectsOperationByMaskAndMatch : Obligations.WordSelectsOperationByMaskAndMatch := by
  intro w
  refine ⟨decode_fixed_iff rfl, decode_fixed_iff rfl, fun _ _ => decode_process_iff, fun _ _ => decode_settgt_iff,
    fun _ => decode_lookup_iff, decode_fixed_iff rfl, decode_fixed_iff rfl, fun _ _ => decode_read_iff,
    fun _ => decode_wrctl_iff, decode_illegalOp_iff, ?_⟩
  rw [decode_rsvdField_iff, decode_ok_iff_row]
  push Not
  rfl

end Sys2Proof

namespace Sys2Proof.Machine

/-! ### Checks 3 to 5, and the five together (60_exceptions.md R223) -/

/-- Checks 1 and 2 are the decoder's. -/
theorem rejectionCode_of_decode_error {c : Config} {w : Word} {e : CmdError} (h : decode w = .error e) :
    rejectionCode c w = some (errCode e) := by
  obtain ⟨rfl, h9⟩ | ⟨rfl, h8⟩ := decode_error_cases h
  · exact if_pos h9
  · have hmbz : w &&& mustBeZero (opField w).toNat ≠ 0 := fun h0 =>
      (decode_rsvdField_iff.mp h).2 (decode_ok_iff_mustBeZero.mpr ⟨h8, h0⟩)
    exact (if_neg (Nat.not_le_of_lt (Nat.lt_succ_of_le h8))).trans (if_pos hmbz)

theorem selectorCode_eq_15_iff (sel : Selector) : (selectorCode sel).toNat = 15 ↔ sel.perBit = none := by
  cases sel <;> decide

theorem globalSel_selectorCode (sel : Selector) :
    globalSel (selectorCode sel).toNat = (sel.perBit == some false) := by
  cases sel <;> rfl

theorem indexError_code (c : Config) (i : Byte) :
    (indexError c i).map errCode = if c.n ≤ i.toNat then some 3 else none := by
  by_cases h : c.n ≤ i.toNat
  · simp [indexError, Nat.not_lt.mpr h, h, errCode]
  · simp [indexError, Nat.not_le.mp h, h]

theorem sampleError_code (c : Config) (smp : Half) :
    (sampleError c smp).map errCode = if 2 ^ c.sw ≤ smp.toNat then some 5 else none := by
  by_cases h : 2 ^ c.sw ≤ smp.toNat
  · simp [sampleError, Nat.not_lt.mpr h, h, errCode]
  · simp [sampleError, Nat.not_le.mp h, h]

theorem processError_code (c : Config) (i : Byte) (smp : Half) :
    (processError c i smp).map errCode =
      if c.n ≤ i.toNat then some 3 else if 2 ^ c.sw ≤ smp.toNat then some 5 else none := by
  rw [processError, Option.map_or, indexError_code, sampleError_code]
  split <;> rfl

theorem globalIndexError_code (i : Byte) :
    (globalIndexError i).map errCode = if i.toNat ≠ 0 then some 2 else none := by
  have hzero : i = 0#8 ↔ i.toNat = 0 := BitVec.toNat_inj.symm
  by_cases h : i.toNat = 0
  · simp [globalIndexError, hzero, h]
  · simp [globalIndexError, hzero, h, errCode]

/-- Checks 3 to 5 are those of the decoded operation's operands. -/
theorem rejectionCode_of_decode_ok {c : Config} {w : Word} {i : Instr} (h : decode w = .ok i) :
    rejectionCode c w = (operandError c i).map errCode := by
  obtain ⟨h8, hmbz⟩ := decode_ok_iff_mustBeZero.mp ⟨i, h⟩
  have h9 : ¬ 9 ≤ (opField w).toNat := by omega
  have ho : w.extractLsb' 28 4 = opField w := rfl
  have hs : w.extractLsb' 24 4 = selField w := rfl
  have hi : w.extractLsb' 16 8 = idxField w := rfl
  have hm : w.extractLsb' 0 16 = immField w := rfl
  rw [rejectionCode, ho, hs, hi, hm, if_neg h9, if_neg (not_not_intro hmbz), ← encode_of_decode h]
  cases i with
  | nop | cycle | lookup | advance | pulse | wrctl => simp [encode, operandError]
  | process i smp => simp [encode, operandError, processError_code]
  | settgt i b => simp [encode, operandError, indexError_code]
  | read sel i =>
    simp only [encode, operandError, opField_cmd32, selField_cmd32, idxField_cmd32, selectorCode_eq_15_iff,
      globalSel_selectorCode, readError_perBit]
    cases hp : sel.perBit with
    | none => simp [errCode]
    | some perBit =>
      cases perBit with
      | true => simp [indexError_code]
      | false => simp [globalIndexError_code]

theorem rejectionCode_eq_none_iff {c : Config} {w : Word} :
    rejectionCode c w = none ↔ ∃ i, decode w = .ok i ∧ i.wellFormed c = true := by
  cases hd : decode w with
  | error e => simp [rejectionCode_of_decode_error hd]
  | ok i => simp [rejectionCode_of_decode_ok hd, operandError_none_iff]

theorem runWord_of_decode {w : Word} {i : Instr} (h : decode w = .ok i) (s : State) : runWord w s = exec i s := by
  rw [runWord, h]

/-- Settles O6: the checks pass on an operation whose operands meet R82, and a word that decodes runs. -/
theorem unrejectedWordSelectsWellFormedOperation : Obligations.UnrejectedWordSelectsWellFormedOperation := by
  intro s w
  rw [rejectionCode_eq_none_iff]
  constructor
  · rintro ⟨i, hd, hwf⟩
    exact ⟨i, hd, hwf, runWord_of_decode hd s⟩
  · rintro ⟨i, hd, hwf, -⟩
    exact ⟨i, hd, hwf⟩

/-! ### HALT (30_encoding.md R90) -/

/-- Without a command and with RUN = 0 the SFC waits (44_coordinator.md R190, R191). -/
theorem step_waits {s : State} (hl : s.cfg.Legal) (hr : s.boundaryInput.rst = false)
    (hv : s.boundaryInput.cmdValid = false) (hc : ctrlRun s.ctrl = false) : step s = .next s.openBoundary := by
  rw [step_of_legal hl]
  simp [runBoundary, hr, hv, runSequencer, hc]

/-- A command presented without `rst` runs on the opened boundary (44_coordinator.md R191). -/
theorem step_command {s : State} {i : Instr} (hl : s.cfg.Legal) (hr : s.boundaryInput.rst = false)
    (hv : s.boundaryInput.cmdValid = true) (hd : decode s.boundaryInput.cmd = .ok i) :
    step s = exec i s.openBoundary := by
  rw [step_of_legal hl, runBoundary, hr, hv, ← runWord_of_decode hd]
  rfl

/-- Settles O49: WRCTL 0 leaves RUN = 0 and every other register but RSP, and the next boundary finds nothing to do. -/
theorem writeControlZeroStopsTheSequencer : Obligations.WriteControlZeroStopsTheSequencer := by
  intro s t hl hr hv hcmd hstep htr htv
  have hd : decode s.boundaryInput.cmd = .ok (.wrctl false) := hcmd ▸ decode_encode (.wrctl false)
  obtain rfl : writeControl false s.openBoundary = t :=
    Host.Outcome.next.inj ((step_command hl hr hv hd).symm.trans hstep)
  have hrun : ctrlRun (writeControl false s.openBoundary).ctrl = false := ctrlRun_ctrlWithRun s.ctrl false
  exact ⟨_, step_waits hl htr htv hrun, rfl, rfl, rfl, ctrlRead_ctrlWithRun s.ctrl false, rfl, hrun, rfl⟩

end Sys2Proof.Machine
end

section
/-! The symbol lookup's obligations (40_symbol_lookup.md): LOOKUP answers a byte's first ordinal. -/

namespace Sys2Proof.Machine

/-- LOOKUP answers `position_of(b)` and does nothing else (R113). -/
theorem exec_lookup (b : Byte) (s : State) :
    exec (.lookup b) s = .next (afterResponse s (BitVec.ofNat 32 (positionOf s.cfg b))) := rfl

/-- Inside the table, the ROM read decides where a byte stands, and a free value never counts as an entry (R66). -/
theorem symtab_getElem?_eq_some_iff {c : Config} {k : Nat} (hk : k < c.symtab.length) (b : Byte) :
    c.symtab[k]? = some b ↔ memRead c .sym k = b := by
  rw [memRead_sym (List.getElem?_eq_getElem hk), List.getElem?_eq_getElem hk, Option.some_inj]

/-- `position_of` on a table of 55 entries, in terms of the entries (R111). -/
theorem positionOf_first_or_absent {c : Config} (hlen : c.symtab.length = nsym) (b : Byte) :
    (c.symtab[positionOf c b]? = some b ∧ ∀ j, j < positionOf c b → c.symtab[j]? ≠ some b) ∨
    (b ∉ c.symtab ∧ positionOf c b = 0) := by
  have entry : ∀ k, k < nsym → (c.symtab[k]? = some b ↔ memRead c .sym k = b) :=
    fun k hk => symtab_getElem?_eq_some_iff (hlen ▸ hk) b
  rcases positionOf_cases c b with ⟨hlt, hat, hbefore⟩ | ⟨hzero, hnone⟩
  · left
    exact ⟨(entry _ hlt).mpr hat, fun j hj h => hbefore j hj ((entry j (hj.trans hlt)).mp h)⟩
  · right
    refine ⟨fun hmem => ?_, hzero⟩
    obtain ⟨k, hk, hkb⟩ := List.getElem_of_mem hmem
    exact hnone k (hlen ▸ hk) (memRead_sym (List.getElem?_eq_some_iff.mpr ⟨hk, hkb⟩))

/-- Settles O25: the ordinal is `position_of(b)`. -/
theorem lookupAnswersFirstOrdinal : Obligations.LookupAnswersFirstOrdinal :=
  fun s b hlen => ⟨positionOf s.cfg b, Nat.le_of_lt_succ (positionOf_lt s.cfg b), exec_lookup b s,
    positionOf_first_or_absent hlen b⟩

/-- LOOKUP of a byte that stands first at ordinal `k` answers `k`. -/
theorem exec_lookup_of_firstAt {s : State} {k : Nat} {b : Byte} (hk : k < nsym) (h : FirstAt s.cfg.symtab k b) :
    exec (.lookup b) s = .next (afterResponse s (BitVec.ofNat 32 k)) := by
  rw [exec_lookup, positionOf_firstAt hk h]

/-- Settles O26: R110 puts each of the four bytes first at its ordinal in every legal table. -/
theorem sourceSymbolsStandAtTheirOrdinals : Obligations.SourceSymbolsStandAtTheirOrdinals := by
  intro s hl
  obtain ⟨-, -, -, -, ⟨-, hblank, hA, hH, hnewline⟩, -⟩ := hl
  exact ⟨exec_lookup_of_firstAt (by decide) hblank, exec_lookup_of_firstAt (by decide) hA,
    exec_lookup_of_firstAt (by decide) hH, exec_lookup_of_firstAt (by decide) hnewline⟩

end Sys2Proof.Machine
end

section
/-! The position engine's obligations (41_position_arith.md): its results are exact, and the single-step advance takes a
homed bit to its target in exactly its distance. -/

namespace Sys2Proof.Machine

/-! ### The operations (R121 to R126) -/

/-- The single-step advance adds 1, and only from the last position does the sum reach the modulus (R125). -/
theorem posInc_val_eq_ite {p : StepPos} {T : Nat} (h1 : 1 ≤ T) (h2 : T ≤ 2 ^ 16) (hp : p.val < T) :
    (posInc p T).val = if p.val = T - 1 then 0 else p.val + 1 := by
  rw [posInc_val h1 h2]
  split
  case isTrue hlast => rw [hlast, Nat.sub_add_cancel h1, Nat.mod_self]
  case isFalse => exact Nat.mod_eq_of_lt (by omega)

/-- Settles O22: every position is made by `pos_mod`, which loses nothing for a modulus that fits the register. -/
theorem positionEngineIsExact : Obligations.PositionEngineIsExact := by
  intro T h55 hfits
  have hpos : 1 ≤ T := by omega
  exact ⟨fun _ => posMod_val hpos hfits, fun _ _ _ => posMod_val hpos hfits, fun _ _ => rfl, posEq_iff,
    fun _ => posInc_val_eq_ite hpos hfits⟩

/-- The sum of `target_for` wraps from the first ordinal whose flap starts past the last position (R126). -/
theorem total_le_targetSum_iff {sw : Nat} {b : BitConfig} (h : b.Legal sw) (k : Nat) :
    b.total ≤ b.hoff.steps + b.spf.steps * k ↔ (b.total - 1 - b.hoff.steps) / b.spf.steps < k := by
  obtain ⟨hspf, -, hhoff, -⟩ := h
  rw [Nat.div_lt_iff_lt_mul hspf, Nat.mul_comm k]
  omega

/-- Settles O23: HOFF is below TOTAL, so it is its own remainder at ordinal 0. -/
theorem targetForIsHomeOffsetPlusOrdinalFlaps : Obligations.TargetForIsHomeOffsetPlusOrdinalFlaps := by
  refine ⟨fun sw b h => ⟨targetFor_val h, ?_, fun k _ => total_le_targetSum_iff h k⟩, by decide, by decide⟩
  rw [targetFor_val h, Nat.mul_zero, Nat.add_zero]
  exact Nat.mod_eq_of_lt (legal_total h).2.2

/-! ### PROCESS on a homed bit without a home edge (43_bit_controller.md R157, R158) -/

/-- PROCESS on operands that pass its checks: the whole next state (R158). -/
theorem exec_process {s : State} {i : Byte} {smp : Half} (hs : s.Shaped) (hi : i.toNat < s.cfg.n)
    (hsmp : smp.toNat < 2 ^ s.cfg.sw) :
    exec (.process i smp) s = .next (afterProcess s i.toNat
      (processBit (s.cfg.bit i.toNat) (s.reg i.toNat) smp.toNat).1
      (processBit (s.cfg.bit i.toNat) (s.reg i.toNat) smp.toNat).2) := by
  rw [exec, execProcess, processError_none hi hsmp, checked_none, processCommand_eq (hs ▸ hi)]
  rfl

/-- Without an edge, `process` on a homed bit is the arrival test after the write of SENS. -/
theorem processBit_homed {c : BitConfig} {r : BitRegs} {smp : Nat} (hc : c.untrig < c.trig)
    (hr : r.state ≠ .uninitialized) (hedge : ¬ EdgeSample c r smp) :
    processBit c r smp = seek c { r with sens := debounce r.sens smp c.trig c.untrig } := by
  obtain ⟨h, -⟩ | ⟨h, -⟩ | ⟨-, h, -⟩ | ⟨-, -, e⟩ := processBit_cases hc r smp
  · exact absurd h hr
  · exact absurd h hr
  · exact absurd h hedge
  · exact e

/-- PROCESS on a homed bit without an edge: it settles, or it takes one step towards its target. -/
theorem exec_process_homed {s : State} {i : Byte} {smp : Half} (h : s.Inv) (hi : i.toNat < s.cfg.n)
    (hsmp : smp.toNat < 2 ^ s.cfg.sw) (hr : (s.reg i.toNat).state ≠ .uninitialized)
    (hedge : ¬ EdgeSample (s.cfg.bit i.toNat) (s.reg i.toNat) smp.toNat) :
    exec (.process i smp) s = .next (
      if (s.reg i.toNat).ssh.val = (s.reg i.toNat).tgt.val then
        afterProcess s i.toNat
          { s.reg i.toNat with
            sens := debounce (s.reg i.toNat).sens smp.toNat (s.cfg.bit i.toNat).trig (s.cfg.bit i.toNat).untrig
            state := .settled } false
      else
        afterProcess s i.toNat
          { s.reg i.toNat with
            sens := debounce (s.reg i.toNat).sens smp.toNat (s.cfg.bit i.toNat).trig (s.cfg.bit i.toNat).untrig
            ssh := posInc (s.reg i.toNat).ssh (s.cfg.bit i.toNat).total
            state := .seeking } true) := by
  obtain ⟨-, -, -, hthresholds, -⟩ := legal_bit h.legal hi
  rw [exec_process h.shaped hi hsmp, processBit_homed hthresholds hr hedge]
  obtain ⟨harrived, e⟩ | ⟨haway, e⟩ := seek_cases (s.cfg.bit i.toNat)
    { s.reg i.toNat with
      sens := debounce (s.reg i.toNat).sens smp.toNat (s.cfg.bit i.toNat).trig (s.cfg.bit i.toNat).untrig }
  · rw [e, if_pos harrived]
  · rw [e, if_neg haway]

/-- Settles O31: the invariant keeps SSH below TOTAL, where the single-step advance is `+ 1` with its wrap. -/
theorem homedBitSeeksUntilArrival : Obligations.HomedBitSeeksUntilArrival := by
  intro s i smp h hi hsmp hr hedge
  obtain ⟨h55, hfits, -⟩ := legal_total (legal_bit h.legal hi)
  obtain ⟨hssh, -⟩ := h.bitInv hi
  exact ⟨_, posInc_val_eq_ite (by omega) hfits hssh, exec_process_homed h hi hsmp hr hedge⟩

/-! ### The distance to the target (43_bit_controller.md R163) -/

/-- `(TGT - SSH) mod TOTAL`, the steps a homed bit still has to take (R163). -/
def stepsToTarget (c : BitConfig) (r : BitRegs) : Nat := (r.tgt.val + c.total - r.ssh.val) % c.total

/-- The two forms of the distance: the target lies ahead in this turn, or in the next one. -/
theorem stepsToTarget_eq_ite {c : BitConfig} {r : BitRegs} (h : BitInv c r) :
    stepsToTarget c r =
      if r.ssh.val ≤ r.tgt.val then r.tgt.val - r.ssh.val else r.tgt.val + c.total - r.ssh.val := by
  obtain ⟨hssh, htgt, -⟩ := h
  unfold stepsToTarget
  split
  case isTrue hle =>
    rw [Nat.sub_add_comm hle, Nat.add_mod_right]
    exact Nat.mod_eq_of_lt (by omega)
  case isFalse hgt => exact Nat.mod_eq_of_lt (by omega)

theorem stepsToTarget_eq_zero_iff {c : BitConfig} {r : BitRegs} (h : BitInv c r) :
    stepsToTarget c r = 0 ↔ r.ssh.val = r.tgt.val := by
  rw [stepsToTarget_eq_ite h]
  obtain ⟨hssh, htgt, -⟩ := h
  split <;> omega

/-- One single-step advance takes one off the distance, over the wrap too (41_position_arith.md R125, R129). -/
theorem stepsToTarget_of_posInc {sw : Nat} {c : BitConfig} (hc : c.Legal sw) {r r' : BitRegs} (h : BitInv c r)
    (h' : BitInv c r') (haway : r.ssh.val ≠ r.tgt.val) (htgt : r'.tgt = r.tgt) (hssh : r'.ssh = posInc r.ssh c.total) :
    stepsToTarget c r' + 1 = stepsToTarget c r := by
  obtain ⟨h55, hfits, -⟩ := legal_total hc
  have hstep := posInc_val_eq_ite (by omega) hfits h.1
  rw [stepsToTarget_eq_ite h, stepsToTarget_eq_ite h', htgt, hssh, hstep]
  obtain ⟨hlt, htlt, -⟩ := h
  split <;> split <;> split <;> omega

/-- Bit `i` of an SFC of configuration `cfg` is homed and has `n` steps left to its target. -/
structure StepsLeft (cfg : Config) (i n : Nat) (s : State) : Prop where
  cfg_eq : s.cfg = cfg
  inv    : s.Inv
  homed  : (s.reg i).state ≠ .uninitialized
  steps  : stepsToTarget (cfg.bit i) (s.reg i) = n

/-- PROCESS leaves bit `i` with the given registers and its clutch at the need. -/
theorem afterProcess_reg {s : State} {i : Nat} (hi : i < s.bits.length) (r : BitRegs) (need : Bool) :
    (afterProcess s i r need).reg i = { r with clutch := need } :=
  State.reg_set_self (s := s) rfl hi

section
variable {cfg : Config} {i : Byte} {n : Nat} {smp : Half} {s t : State} (hi : i.toNat < cfg.n)
  (hsmp : smp.toNat < 2 ^ cfg.sw) (hedge : ¬ EdgeSample (cfg.bit i.toNat) (s.reg i.toNat) smp.toNat)
  (ht : exec (.process i smp) s = .next t)
include hi hsmp hedge ht

/-- With a step left, the call answers 1 and takes it. -/
theorem StepsLeft.process_succ (h : StepsLeft cfg i.toNat (n + 1) s) :
    StepsLeft cfg i.toNat n t ∧ t.rsp = 1 := by
  obtain ⟨rfl, hinv, hhomed, hsteps⟩ := h
  have haway : (s.reg i.toNat).ssh.val ≠ (s.reg i.toNat).tgt.val := fun harrived => by
    rw [(stepsToTarget_eq_zero_iff (hinv.bitInv hi)).mpr harrived] at hsteps
    cases hsteps
  have hwrites := exec_registerWrites ht
  have hinv' : t.Inv := hwrites.keeps_inv hinv
  have hbit' : BitInv (s.cfg.bit i.toNat) (t.reg i.toNat) := hwrites.cfg ▸ hinv'.bitInv (hwrites.cfg ▸ hi)
  rw [exec_process_homed hinv hi hsmp hhomed hedge, if_neg haway] at ht
  cases ht
  rw [afterProcess_reg (hinv.shaped ▸ hi)] at hbit'
  refine ⟨⟨rfl, hinv', ?_, ?_⟩, rfl⟩ <;> rw [afterProcess_reg (hinv.shaped ▸ hi)]
  · simp
  · have hone := stepsToTarget_of_posInc (legal_bit hinv.legal hi) (hinv.bitInv hi) hbit' haway rfl rfl
    omega

/-- With no step left, the call answers 0 and settles the bit. -/
theorem StepsLeft.process_zero (h : StepsLeft cfg i.toNat 0 s) :
    t.rsp = 0 ∧ (t.reg i.toNat).state = .settled := by
  obtain ⟨rfl, hinv, hhomed, hsteps⟩ := h
  have harrived := (stepsToTarget_eq_zero_iff (hinv.bitInv hi)).mp hsteps
  rw [exec_process_homed hinv hi hsmp hhomed hedge, if_pos harrived] at ht
  cases ht
  exact ⟨rfl, by rw [afterProcess_reg (hinv.shaped ▸ hi)]⟩

end

/-- Settles O32: by induction on the calls, `d - k` steps are left before call `k`. -/
theorem bitSettlesAfterExactlyItsDistance : Obligations.BitSettlesAfterExactlyItsDistance := by
  intro u smp i d hinv hi hd hhomed hcalls
  have hcall : ∀ k, k < d → StepsLeft (u 0).cfg i.toNat (d - k) (u k) →
      StepsLeft (u 0).cfg i.toNat (d - (k + 1)) (u (k + 1)) ∧ (u (k + 1)).rsp = 1 := by
    intro k hk hleft
    obtain ⟨hsmp, hedge, ht⟩ := hcalls k hk.le
    have hsucc : d - k = d - (k + 1) + 1 := by omega
    exact (hsucc ▸ hleft).process_succ hi hsmp hedge ht
  have hleft : ∀ k, k ≤ d → StepsLeft (u 0).cfg i.toNat (d - k) (u k) := by
    intro k
    induction k with
    | zero => exact fun _ => ⟨rfl, hinv, hhomed, hd.symm⟩
    | succ k ih => exact fun hk => (hcall k hk (ih (Nat.le_of_succ_le hk))).1
  refine ⟨?_, fun k hk => (hcall k hk (hleft k hk.le)).2, ?_⟩
  · have h55 := (legal_total (legal_bit hinv.legal hi)).1
    rw [hd]
    exact Nat.le_sub_one_of_lt (Nat.mod_lt _ (by omega))
  · obtain ⟨hsmp, hedge, ht⟩ := hcalls d le_rfl
    exact (Nat.sub_self d ▸ hleft d le_rfl).process_zero hi hsmp hedge ht

end Sys2Proof.Machine
end

section
/-! The debouncer's obligation (42_sensor_debounce.md): its two thresholds and the dead-band between them. -/

namespace Sys2Proof.Machine

/-- A sample at or below UNTRIG is below TRIG, so the first comparison of `debounce` leaves it to the second (R140). -/
theorem debounce_of_le_untrig {prev : SensorState} {smp trig untrig : Nat} (hlegal : untrig < trig)
    (h : smp ≤ untrig) : debounce prev smp trig untrig = .untriggered := by
  rw [debounce, if_neg (Nat.not_le.mpr (h.trans_lt hlegal)), if_pos h]

/-- In the dead-band neither comparison of `debounce` passes (R140). -/
theorem debounce_of_between {prev : SensorState} {smp trig untrig : Nat} (hlow : untrig < smp) (hhigh : smp < trig) :
    debounce prev smp trig untrig = prev := by
  rw [debounce, if_neg (Nat.not_le.mpr hhigh), if_neg (Nat.not_le.mpr hlow)]

/-- Settles O27: one lemma for each branch of `debounce`, and the one for the home edge. -/
theorem debouncerHasHysteresis : Obligations.DebouncerHasHysteresis :=
  fun _ _ _ _ hlegal => ⟨debounce_of_trig_le, debounce_of_le_untrig hlegal, debounce_of_between,
    homeEdge_debounce_iff hlegal⟩

end Sys2Proof.Machine
end

section
/-! The bit controller's obligations (43_bit_controller.md): PROCESS before homing and at a home edge, the length of a
first homing, and SETTGT. -/

namespace Sys2Proof.Machine

/-! ### PROCESS on an Uninitialized bit without a home edge (R156) -/

/-- Before homing and without an edge, `process` writes SENS and needs a step. -/
theorem processBit_unhomed {c : BitConfig} {r : BitRegs} {smp : Nat} (hc : c.untrig < c.trig)
    (hr : r.state = .uninitialized) (hedge : ¬ EdgeSample c r smp) :
    processBit c r smp = ({ r with sens := debounce r.sens smp c.trig c.untrig }, true) := by
  obtain ⟨-, -, e⟩ | ⟨-, h, -⟩ | ⟨h, -⟩ | ⟨h, -⟩ := processBit_cases hc r smp
  · exact e
  · exact absurd h hedge
  · exact absurd hr h
  · exact absurd hr h

/-- Settles O28: `process` needs a step and writes SENS alone, and PROCESS adds the clutch and the answer. -/
theorem processKeepsTurningBeforeHoming : Obligations.ProcessKeepsTurningBeforeHoming := by
  intro s i smp hl hs hi hsmp hr hedge
  obtain ⟨-, -, -, hthresholds, -⟩ := legal_bit hl hi
  rw [exec_process hs hi hsmp, processBit_unhomed hthresholds hr hedge]

/-! ### PROCESS at a home edge (R153 to R155, R165) -/

/-- One step from home is position 1: a drum has at least 55 positions, so the advance does not wrap there. -/
theorem posInc_home {sw : Nat} {c : BitConfig} (hc : c.Legal sw) : posInc .home c.total = ⟨1⟩ := by
  obtain ⟨h55, hfits, -⟩ := legal_total hc
  have hhome : StepPos.home.val = 0 := rfl
  apply stepPos_ext
  rw [posInc_val_eq_ite (by omega) hfits (by omega), if_neg (by omega)]
  rfl

/-- The arrival test at home: a target of 0 settles the bit there, any other takes the first step (R157). -/
theorem seek_home {sw : Nat} {c : BitConfig} (hc : c.Legal sw) {r : BitRegs} (hssh : r.ssh = .home) :
    seek c r =
      if r.tgt.val = 0 then ({ r with ssh := ⟨0⟩, state := .settled }, false)
      else ({ r with ssh := ⟨1⟩, state := .seeking }, true) := by
  obtain ⟨harrived, e⟩ | ⟨haway, e⟩ := seek_cases c r <;> rw [e, hssh]
  · rw [hssh] at harrived
    exact (if_pos harrived.symm).symm
  · rw [hssh] at haway
    rw [posInc_home hc]
    exact (if_neg haway.symm).symm

/-- PROCESS whose `process` comes to the arrival test with the registers `r` at home: the whole next state. -/
theorem exec_process_home {s : State} {i : Byte} {smp : Half} {r : BitRegs} (hl : s.cfg.Legal) (hs : s.Shaped)
    (hi : i.toNat < s.cfg.n) (hsmp : smp.toNat < 2 ^ s.cfg.sw) (hssh : r.ssh = .home)
    (hseek : processBit (s.cfg.bit i.toNat) (s.reg i.toNat) smp.toNat = seek (s.cfg.bit i.toNat) r) :
    exec (.process i smp) s = .next (
      if r.tgt.val = 0 then afterProcess s i.toNat { r with ssh := ⟨0⟩, state := .settled } false
      else afterProcess s i.toNat { r with ssh := ⟨1⟩, state := .seeking } true) := by
  rw [exec_process hs hi hsmp, hseek, seek_home (legal_bit hl hi) hssh]
  split <;> rfl

/-- The first home edge brings an Uninitialized bit to the arrival test at home, its target HOFF (R155). -/
theorem processBit_first_edge {c : BitConfig} {r : BitRegs} {smp : Nat} (hc : c.untrig < c.trig)
    (hr : r.state = .uninitialized) (hedge : EdgeSample c r smp) :
    processBit c r smp =
      seek c { r with sens := .triggered, ssh := .home, tgt := homeOffsetPos c, state := .seeking } := by
  obtain ⟨-, h, -⟩ | ⟨-, -, e⟩ | ⟨h, -⟩ | ⟨h, -⟩ := processBit_cases hc r smp
  · exact absurd hedge h
  · exact e
  · exact absurd hr h
  · exact absurd hr h

/-- A later home edge brings a homed bit to the arrival test at home, its target as it was (R154). -/
theorem processBit_later_edge {c : BitConfig} {r : BitRegs} {smp : Nat} (hc : c.untrig < c.trig)
    (hr : r.state ≠ .uninitialized) (hedge : EdgeSample c r smp) :
    processBit c r smp = seek c { r with sens := .triggered, ssh := .home } := by
  obtain ⟨h, -⟩ | ⟨h, -⟩ | ⟨-, -, e⟩ | ⟨-, h, -⟩ := processBit_cases hc r smp
  · exact absurd h hr
  · exact absurd h hr
  · exact e
  · exact absurd hedge h

/-- Settles O29: the target is HOFF, which is below TOTAL and so is the value of its register. -/
theorem firstHomeEdgeTargetsHomeOffset : Obligations.FirstHomeEdgeTargetsHomeOffset := by
  intro s i smp hl hs hi hsmp hr hedge
  obtain ⟨-, -, -, hthresholds, -⟩ := legal_bit hl hi
  exact ⟨homeOffsetPos (s.cfg.bit i.toNat), homeOffsetPos_val (legal_bit hl hi),
    exec_process_home hl hs hi hsmp rfl (processBit_first_edge hthresholds hr hedge)⟩

/-- Settles O30: the edge only puts SSH back to 0 before the arrival test. -/
theorem laterHomeEdgeResynchronises : Obligations.LaterHomeEdgeResynchronises := by
  intro s i smp hl hs hi hsmp hr hedge
  obtain ⟨-, -, -, hthresholds, -⟩ := legal_bit hl hi
  exact exec_process_home hl hs hi hsmp rfl (processBit_later_edge hthresholds hr hedge)

/-! ### The length of a first homing (R164) -/

section
variable {s t : State} {i : Byte} {smp : Half} {n : Nat} (h : s.Inv) (hi : i.toNat < s.cfg.n)
  (hsmp : smp.toNat < 2 ^ s.cfg.sw) (hr : (s.reg i.toNat).state = .uninitialized)
  (hedge : EdgeSample (s.cfg.bit i.toNat) (s.reg i.toNat) smp.toNat) (ht : exec (.process i smp) s = .next t)
include h hi hsmp hr hedge ht

/-- The edge call on a bit whose HOFF is 0 answers 0 and settles it. -/
theorem first_edge_settles (hhoff : (s.cfg.bit i.toNat).hoff.steps = 0) :
    t.rsp = 0 ∧ (t.reg i.toNat).state = .settled := by
  obtain ⟨p, hp, e⟩ := firstHomeEdgeTargetsHomeOffset s i smp h.legal h.shaped hi hsmp hr hedge
  rw [if_pos (hp.trans hhoff), ht] at e
  cases e
  exact ⟨rfl, by rw [afterProcess_reg (h.shaped ▸ hi)]⟩

/-- The edge call on a bit whose HOFF is above 0 answers 1 and is itself the first step towards HOFF. -/
theorem first_edge_stepsLeft (hhoff : (s.cfg.bit i.toNat).hoff.steps = n + 1) :
    StepsLeft s.cfg i.toNat n t ∧ t.rsp = 1 := by
  have hwrites := exec_registerWrites ht
  have hinv' : t.Inv := hwrites.keeps_inv h
  have hbit' : BitInv (s.cfg.bit i.toNat) (t.reg i.toNat) := hwrites.cfg ▸ hinv'.bitInv (hwrites.cfg ▸ hi)
  obtain ⟨p, hp, e⟩ := firstHomeEdgeTargetsHomeOffset s i smp h.legal h.shaped hi hsmp hr hedge
  rw [if_neg (by omega), ht] at e
  cases e
  have hreg := afterProcess_reg (h.shaped ▸ hi : i.toNat < s.bits.length)
  refine ⟨⟨rfl, hinv', ?_, ?_⟩, rfl⟩
  · rw [hreg]
    simp
  · have hahead : 1 ≤ p.val := by omega
    have hrest : p.val - 1 = n := by omega
    rw [stepsToTarget_eq_ite hbit', hreg]
    exact (if_pos hahead).trans hrest

end

/-- Settles O33: with HOFF above 0 the edge call is the first step, and O32 counts the others. -/
theorem firstHomingTravelsHomeOffset : Obligations.FirstHomingTravelsHomeOffset := by
  intro u smp i hinv hi hr hedge hcalls
  obtain ⟨hsmp, -, ht⟩ := hcalls 0 (Nat.zero_le _)
  cases hhoff : ((u 0).cfg.bit i.toNat).hoff.steps with
  | zero =>
    exact ⟨fun k hk => absurd hk (Nat.not_lt_zero k), first_edge_settles hinv hi hsmp hr hedge ht hhoff⟩
  | succ n =>
    obtain ⟨⟨hcfg, hinv', hhomed, hsteps⟩, hrsp⟩ := first_edge_stepsLeft hinv hi hsmp hr hedge ht hhoff
    obtain ⟨-, hbusy, hlast⟩ := bitSettlesAfterExactlyItsDistance (fun k => u (k + 1)) (fun k => smp (k + 1)) i n
      hinv' (hcfg ▸ hi) (hcfg ▸ hsteps.symm) hhomed (fun k hk => by
        obtain ⟨hsmp, hedge, ht⟩ := hcalls (k + 1) (by omega)
        exact ⟨hcfg ▸ hsmp, hcfg ▸ hedge (by omega), ht⟩)
    refine ⟨fun k hk => ?_, hlast⟩
    cases k with
    | zero => exact hrsp
    | succ k => exact hbusy k (by omega)

/-! ### SETTGT (R159, R160) -/

/-- SETTGT on an index that passes its check: the whole next state. -/
theorem exec_settgt {s : State} {i : Byte} (b : Byte) (hi : i.toNat < s.cfg.n) :
    exec (.settgt i b) s = .next (afterBitWrite s i.toNat
      (setTargetBit s.cfg (s.cfg.bit i.toNat) (s.reg i.toNat) b)
      (BitVec.ofNat 32 (targetFor (s.cfg.bit i.toNat) (positionOf s.cfg b)).val)) := by
  rw [exec, execSettgt, indexError_of_lt hi, checked_none, StepPos.val, BitVec.ofNat_toNat]
  rfl

/-- Settles O35: the new target is `target_for` of the byte's ordinal. -/
theorem setTargetWritesOnlyTheTarget : Obligations.SetTargetWritesOnlyTheTarget :=
  fun s i b hl hi => ⟨targetFor (s.cfg.bit i.toNat) (positionOf s.cfg b), targetFor_val (legal_bit hl hi) _,
    exec_settgt b hi⟩

/-- A write of bit `i` leaves it with the given registers. -/
theorem afterBitWrite_reg {s : State} {i : Nat} (hi : i < s.bits.length) (r : BitRegs) (v : Word) :
    (afterBitWrite s i r v).reg i = r :=
  State.reg_set_self (s := s) rfl hi

/-- A second write of bit `i` forgets the first, but for its output event. -/
theorem afterBitWrite_afterBitWrite (s : State) (i : Nat) (r r' : BitRegs) (v v' : Word) :
    afterBitWrite (afterBitWrite s i r v) i r' v' =
      { afterBitWrite s i r' v' with out := s.out ++ [.cmdDone] ++ [.cmdDone] } := by
  simp [afterBitWrite, afterResponse]

/-- Settles O36: SETTGT reads nothing that the first one wrote, and it writes over all that the first one wrote. -/
theorem lastSetTargetWins : Obligations.LastSetTargetWins := by
  intro s t u v i b b' hs hi ht hu hv
  rw [exec_settgt b hi] at ht
  cases ht
  rw [exec_settgt b' hi] at hv
  cases hv
  have hreg := afterBitWrite_reg (hs ▸ hi : i.toNat < s.bits.length)
  rw [exec_settgt b' (by exact hi), hreg, afterBitWrite_afterBitWrite] at hu
  cases hu
  rfl

end Sys2Proof.Machine
end

section
/-! The cycle beside PROCESS (43_bit_controller.md R156, R158; 44_coordinator.md R181 to R186): a bit that needs a step
keeps the cycle from the message, and a one-bit cycle is PROCESS and PULSE. -/

namespace Sys2Proof.Machine

/-- A cycle in which some bit needs a step ends after the pulse, with IDLE 0 (R185, R186). -/
theorem cycleBody_of_need {s : State} {i : Nat} (hs : s.Shaped) (hi : i < s.cfg.n)
    (hneed : (processBit (s.cfg.bit i) (s.reg i) (s.sampleAt i)).2 = true) :
    cycleBody s = { cyclePulse s with status := statusWithIdle s.status false } := by
  obtain ⟨-, e⟩ | ⟨hidle, -⟩ := cycleBody_cases s
  · exact e
  · rw [(allIdle_iff hs).mp hidle i hi] at hneed
    cases hneed

/-- Settles O44: the bit needs a step, so the cycle is not all-idle and does not come to the advance. -/
theorem unhomedBitHoldsTheMessage : Obligations.UnhomedBitHoldsTheMessage := by
  intro s i h hi hr hedge
  obtain ⟨-, -, -, hthresholds, -⟩ := legal_bit h.legal hi
  have hbit := processBit_unhomed hthresholds hr hedge
  have hbody := cycleBody_of_need h.shaped hi (by rw [hbit])
  have hreg : ((cycleBody s).respond (State.packBits (cycleNeeds s))).reg i = _ :=
    (State.reg_congr (by rw [State.respond_bits, hbody]) i).trans (cyclePulse_reg h.shaped hi)
  rw [hbit] at hreg
  refine ⟨_, rfl, by rw [hreg], by rw [hreg]; exact hr, ?_, ?_⟩
  · rw [State.respond_status, hbody, statusIdle_statusWithIdle]
  · rw [State.respond_msgNext, hbody, cyclePulse_msgNext]

/-! ### The one-bit SFC -/

/-- The register file of a one-bit SFC is its bit 0. -/
theorem bits_of_one {s : State} (hs : s.Shaped) (hn : s.cfg.n = 1) : s.bits = [s.reg 0] := by
  obtain ⟨r, hr⟩ := List.length_eq_one_iff.mp (hs.trans hn)
  rw [State.reg, hr, List.getD_cons_zero]

/-- A cycle of a one-bit SFC updates bit 0. -/
theorem cycleUpdates_of_one {s : State} (hs : s.Shaped) (hn : s.cfg.n = 1) :
    cycleUpdates s = [processBit (s.cfg.bit 0) (s.reg 0) (s.sampleAt 0)] := by
  obtain ⟨p, hp⟩ := List.length_eq_one_iff.mp ((cycleUpdates_length hs).trans hn)
  have hget := cycleUpdates_getElem? hs (i := 0) (by omega)
  rw [hp, List.getElem?_cons_zero] at hget
  rw [hp, Option.some.inj hget]

/-- A port's sample fits the sample field of a command (00_scope.md R9, 30_encoding.md R81). -/
theorem sampleAt_toNat {s : State} (hl : s.cfg.Legal) (i : Nat) :
    (BitVec.ofNat 16 (s.sampleAt i)).toNat = s.sampleAt i := by
  obtain ⟨-, ⟨-, hsw⟩, -⟩ := hl
  exact Nat.mod_eq_of_lt ((samplesFitTheirPorts s i).trans_le (Nat.pow_le_pow_right (by decide) hsw))

/-- A cycle's first three steps write the register file, the `step` line and the sample ports' state, and put out
events; every other field is as it was (R181 to R184). -/
theorem cyclePulse_frame (s : State) :
    cyclePulse s =
      { s with
        bits := (cyclePulse s).bits
        stepOut := false
        sampleIn := s.sampleIn.tail
        sampleDraws := s.sampleDraws + 1
        out := (cyclePulse s).out } := rfl

section
variable {s : State} {r : BitRegs} (h : s.Inv) (hn : s.cfg.n = 1)
include h hn

/-- The whole next state of a CYCLE of a one-bit SFC that needs a step. -/
theorem exec_cycle_of_one (hbit : processBit (s.cfg.bit 0) (s.reg 0) (s.sampleAt 0) = (r, true)) :
    exec .cycle s = .next { s with
      bits := [{ r with clutch := true }]
      status := statusWithIdle s.status false
      rsp := State.packBits [true]
      stepOut := false
      sampleIn := s.sampleIn.tail
      sampleDraws := s.sampleDraws + 1
      out := s.out ++ .clutchEn [true] :: pulseEvents s.cfg.pulseWidth ++ [.cmdDone] } := by
  have hupdates : cycleUpdates s = [(r, true)] := by rw [cycleUpdates_of_one h.shaped hn, hbit]
  have hneeds : cycleNeeds s = [true] := by rw [cycleNeeds, hupdates, List.map_singleton]
  rw [exec, execCycle, cycleBody_of_need h.shaped (i := 0) (hn ▸ Nat.zero_lt_one) (by rw [hbit]), cyclePulse_frame,
    cyclePulse_bits, cyclePulse_out, hupdates, hneeds]
  rfl

/-- PROCESS with bit 0's sample port: the whole next state. -/
theorem exec_process_of_one {need : Bool}
    (hbit : processBit (s.cfg.bit 0) (s.reg 0) (s.sampleAt 0) = (r, need)) :
    exec (.process 0 (BitVec.ofNat 16 (s.sampleAt 0))) s = .next (afterProcess s 0 r need) := by
  have hsmp := sampleAt_toNat h.legal 0
  have hfits : s.sampleAt 0 < 2 ^ s.cfg.sw := samplesFitTheirPorts s 0
  have hi : (0 : Byte).toNat < s.cfg.n := hn ▸ Nat.zero_lt_one
  have hbit' : processBit (s.cfg.bit (0 : Byte).toNat) (s.reg (0 : Byte).toNat) (s.sampleAt 0) = (r, need) := hbit
  rw [exec_process h.shaped hi (by rw [hsmp]; exact hfits), hsmp, hbit']
  rfl

/-- PULSE after a PROCESS that engaged the clutch of a one-bit SFC: the whole next state. -/
theorem exec_pulse_afterProcess_of_one :
    exec .pulse (afterProcess s 0 r true) = .next { s with
      bits := [{ r with clutch := true }]
      rsp := State.packBits [true]
      stepOut := false
      out := s.out ++ [.clutchEn [true], .cmdDone] ++ pulseEvents s.cfg.pulseWidth ++ [.cmdDone] } := by
  have hset : s.bits.set 0 { r with clutch := true } = [{ r with clutch := true }] := by
    rw [bits_of_one h.shaped hn, List.set_cons_zero]
  rw [exec, execPulse, afterProcess, hset]
  simp [State.respond, State.emitPulse, State.driveStep, State.wait, State.emit, State.clutchLevels, pulseEvents]

end

/-- Settles O45: both update bit 0 with the port's sample, engage its clutch and emit one pulse. -/
theorem singleBitCycleIsProcessThenPulse : Obligations.SingleBitCycleIsProcessThenPulse := by
  intro s t u v h hn ht hu hrsp hv
  rcases hbit : processBit (s.cfg.bit 0) (s.reg 0) (s.sampleAt 0) with ⟨r, need⟩
  rw [exec_process_of_one h hn hbit] at hu
  cases hu
  cases need with
  | false => cases hrsp
  | true =>
    rw [exec_cycle_of_one h hn hbit] at ht
    rw [exec_pulse_afterProcess_of_one h hn] at hv
    cases ht
    cases hv
    refine ⟨rfl, rfl, rfl, rfl, rfl, fun k hk => ?_, ?_, ?_⟩
    · rw [statusWithIdle_getLsbD, if_neg hk]
    · simp [pulseEvents]
    · simp [pulseEvents]

end Sys2Proof.Machine
end

section
/-! The coordinator's obligations (44_coordinator.md): what an operation boundary starts, ADVANCE, PULSE, and the two
ends of a CYCLE. -/

namespace Sys2Proof.Machine

/-! ### Operation boundaries (R190, R191) -/

/-- A word that the decoder rejects is rejected on the opened boundary (30_encoding.md R85). -/
theorem step_rejected {s : State} {e : CmdError} (hl : s.cfg.Legal) (hr : s.boundaryInput.rst = false)
    (hv : s.boundaryInput.cmdValid = true) (hd : decode s.boundaryInput.cmd = .error e) :
    step s = .next (s.openBoundary.reject e) := by
  rw [step_of_legal hl]
  simp [runBoundary, hr, hv, runWord, hd]

/-- Settles O8: a presented word that decodes runs on the opened boundary. -/
theorem stepRunsDecodedCommand : Obligations.StepRunsDecodedCommand := fun _ _ => step_command

/-- Settles O9: a rejection is a write of STATUS and the response of all ones. -/
theorem stepRejectsUndecodableWord : Obligations.StepRejectsUndecodableWord := fun _ _ => step_rejected

/-- Settles O11: the waiting step only opens the boundary. -/
theorem haltedMachineWaits : Obligations.HaltedMachineWaits := fun _ => step_waits

/-! ### ADVANCE (R187, R188) -/

/-- Settles O38: the advance, then the response with the row it loaded. -/
theorem advanceLoadsNextRow : Obligations.AdvanceLoadsNextRow := by
  intro s h
  obtain ⟨hm, hm'⟩ := legal_rows h.legal
  refine ⟨_, rfl, ?_, advance_msgNext hm hm', (advance_length h.shaped).trans h.shaped.symm, fun i hi =>
    ⟨_, (romBytesStandAtTheirAddresses s.cfg h.legal).1 _ i h.row hi, advance_reg h.shaped hi⟩⟩
  rw [BitVec.ofNat_toNat]
  rfl

/-! ### PULSE (R183, R189) -/

/-- The level of clutch output `k`; there is no output at or above N. -/
theorem clutchLevels_getD {s : State} (hs : s.Shaped) (k : Nat) :
    s.clutchLevels.getD k false = (decide (k < s.cfg.n) && (s.reg k).clutch) := by
  by_cases hk : k < s.bits.length
  · simp [State.clutchLevels, State.getElem?_bits hk, hs ▸ hk]
  · simp [State.clutchLevels, Nat.le_of_not_lt hk, hs ▸ hk]

/-- Settles O39: one pulse, then the response with the packed clutch levels. -/
theorem pulseEmitsOnePulseAndAnswersClutches : Obligations.PulseEmitsOnePulseAndAnswersClutches := by
  intro s hs
  refine ⟨State.packBits s.clutchLevels, ?_, fun k hk => ?_⟩
  · simp [exec, execPulse, State.respond, State.emitPulse, State.driveStep, State.wait, State.emit, pulseEvents]
  · rw [packBits_getLsbD _ hk, clutchLevels_getD hs]

/-! ### CYCLE (R181 to R187) -/

/-- The output events of a cycle, in order: the clutches together, one pulse, and on an all-idle cycle the settle delay
(R182, R183, R185). -/
def cycleEvents (s : State) : List OutEvent :=
  [.clutchEn (cycleNeeds s)] ++ pulseEvents s.cfg.pulseWidth ++
    if allIdle (cycleNeeds s) then [.wait s.cfg.settleDelay] else []

theorem cycleBody_out_eq (s : State) : (cycleBody s).out = s.out ++ cycleEvents s := by
  obtain ⟨hneed, e⟩ | ⟨hidle, e⟩ := cycleBody_cases s
  · rw [e, cycleEvents, hneed]
    simp [cyclePulse_out, pulseEvents]
  · rw [e, cycleEvents, hidle]
    simp [cyclePulse_out, pulseEvents]

/-- Step is driven to each level once in a cycle: the settle delay and the clutches are no part of the pulse (R184). -/
theorem count_step_cycleEvents (s : State) (level : Bool) : (cycleEvents s).count (.step level) = 1 := by
  rw [cycleEvents, List.count_append]
  split <;> cases level <;> simp [pulseEvents]

/-- The whole next state of a host's CYCLE: MSG_NEXT and the register file as the cycle leaves them, IDLE the all-idle
result, RSP the needs, one entry of the sample ports consumed, every other field as it was (R181 to R186). -/
theorem exec_cycle (s : State) :
    exec .cycle s = .next { s with
      bits := (cycleBody s).bits
      msgNext := (cycleBody s).msgNext
      status := statusWithIdle s.status (allIdle (cycleNeeds s))
      rsp := State.packBits (cycleNeeds s)
      stepOut := false
      sampleIn := s.sampleIn.tail
      sampleDraws := s.sampleDraws + 1
      out := s.out ++ cycleEvents s ++ [.cmdDone] } := by
  rw [exec, execCycle, ← cycleBody_out_eq, ← cycleBody_status]
  obtain ⟨-, e⟩ | ⟨-, e⟩ := cycleBody_cases s <;> rw [e] <;> rfl

/-- Settles O43: whichever end the cycle takes, its events hold the one pulse. -/
theorem cycleEmitsExactlyOnePulse : Obligations.CycleEmitsExactlyOnePulse := by
  intro s
  have hcount (level : Bool) : (cycleEvents s ++ [OutEvent.cmdDone]).count (OutEvent.step level) = 1 := by
    simp [List.count_append, count_step_cycleEvents]
  exact ⟨_, _, exec_cycle s, List.append_assoc .., hcount true, hcount false, rfl⟩

/-- Settles O41: a cycle in which some bit needs a step ends after the pulse. -/
theorem busyCycleUpdatesClutchesThenPulses : Obligations.BusyCycleUpdatesClutchesThenPulses := by
  rintro s h ⟨j, hj, hneed⟩
  have hbody := cycleBody_of_need h.shaped hj hneed
  have hbusy : allIdle (cycleNeeds s) = false := by
    rw [← Bool.not_eq_true, allIdle_iff h.shaped]
    exact fun hidle => Bool.false_ne_true ((hidle j hj).symm.trans hneed)
  refine ⟨_, cycleNeeds s, exec_cycle s, cycleNeeds_length h.shaped, fun i hi =>
    ⟨cycleNeeds_getElem? h.shaped hi, ?_⟩, ?_, cycleBody_length h.shaped, fun k => ?_,
    fun k hk => packBits_getLsbD _ hk⟩
  · have hreg := cycleBody_reg h.shaped hi
    rw [hbusy, cyclePulse_reg h.shaped hi] at hreg
    exact hreg
  · rw [h.stepLow, hbody, cycleEvents, hbusy]
    simp
  · rw [← hbusy]
    exact statusWithIdle_getLsbD ..

/-- On an all-idle cycle every need is false. -/
theorem cycleNeeds_of_idle {s : State} (hs : s.Shaped) (hidle : allIdle (cycleNeeds s) = true) :
    cycleNeeds s = List.replicate s.cfg.n false :=
  List.eq_replicate_iff.mpr ⟨cycleNeeds_length hs, by simpa [allIdle] using hidle⟩

theorem packBits_replicate_false (n : Nat) : State.packBits (List.replicate n false) = 0 := by
  apply BitVec.eq_of_getLsbD_eq
  intro k hk
  rw [packBits_getLsbD _ hk, List.getD_eq_getElem?_getD, List.getElem?_getD_replicate_default_eq,
    BitVec.ofNat_eq_ofNat, BitVec.getLsbD_zero]

/-- Each bit's registers after an all-idle cycle: its update, disengaged, with the target of its byte of row MSG_NEXT
(R182, R187). -/
theorem cycleBody_reg_of_idle {s : State} (h : s.Inv) (hidle : allIdle (cycleNeeds s) = true) {i : Nat}
    (hi : i < s.cfg.n) :
    ∃ b, (s.cfg.msgs[s.msgNext.toNat]?.bind (·[i]?)) = some b ∧
      (cycleBody s).reg i = { (processBit (s.cfg.bit i) (s.reg i) (s.sampleAt i)).1 with
        clutch := false, tgt := targetFor (s.cfg.bit i) (positionOf s.cfg b) } := by
  refine ⟨_, (romBytesStandAtTheirAddresses s.cfg h.legal).1 _ i h.row hi, ?_⟩
  rw [cycleBody_reg h.shaped hi, if_pos hidle, cyclePulse_reg h.shaped hi, (allIdle_iff h.shaped).mp hidle i hi,
    setTargetBit]

/-- An all-idle cycle moves MSG_NEXT as an advance does (R185, R187). -/
theorem cycleBody_msgNext_of_idle {s : State} (hidle : allIdle (cycleNeeds s) = true) :
    (cycleBody s).msgNext = (advance s).msgNext := by
  obtain ⟨hneed, -⟩ | ⟨-, e⟩ := cycleBody_cases s
  · rw [hidle] at hneed; cases hneed
  · rw [e]; rfl

/-- Settles O42: the clutches are all written with a false need, and the cycle ends with the advance. -/
theorem allIdleCycleAdvancesTheMessage : Obligations.AllIdleCycleAdvancesTheMessage := by
  intro s h hneeds
  obtain ⟨hm, hm'⟩ := legal_rows h.legal
  have hidle := (allIdle_iff h.shaped).mpr hneeds
  refine ⟨_, exec_cycle s, fun i hi => cycleBody_reg_of_idle h hidle hi, ?_, ?_, cycleBody_length h.shaped,
    fun k => ?_⟩
  · exact (congrArg BitVec.toNat (cycleBody_msgNext_of_idle hidle)).trans (advance_msgNext hm hm')
  · rw [h.stepLow, cycleEvents, hidle, cycleNeeds_of_idle h.shaped hidle, packBits_replicate_false]
    simp
  · rw [← hidle]
    exact statusWithIdle_getLsbD ..

end Sys2Proof.Machine
end

section
/-! The commands of the control port that answer without reading a selector (45_control_port.md): NOP and WRCTL. READ
is settled with the address maps it reads through. -/

namespace Sys2Proof.Machine

/-- Settles O46: NOP is the response 0 and no write before it (R200). -/
theorem nopOnlyAnswersZero : Obligations.NopOnlyAnswersZero :=
  fun _ => rfl

/-- WRCTL replaces RUN in CTRL and answers `v` alone, whatever CTRL held: its reserved bits read as zero (R204;
10_state.md R31). -/
theorem exec_wrctl (v : Bool) (s : State) :
    exec (.wrctl v) s = .next (afterResponse { s with ctrl := ctrlWithRun s.ctrl v } (if v then 1 else 0)) := by
  rw [← ctrlRead_ctrlWithRun s.ctrl v]
  rfl

/-- Settles O48: the word left in CTRL is CTRL with RUN replaced, which differs from it in bit 0 alone. -/
theorem writeControlWritesOnlyRun : Obligations.WriteControlWritesOnlyRun := by
  intro s v
  refine ⟨ctrlWithRun s.ctrl v, exec_wrctl v s, ctrlRun_ctrlWithRun s.ctrl v, fun k hk => ?_⟩
  rw [ctrlWithRun_getLsbD, if_neg (Nat.ne_of_gt hk)]

end Sys2Proof.Machine
end

section
/-! The obligations on rejection (60_exceptions.md): a rejected command has R222's effects alone, and no step of a legal
SFC ends in a fault or a refusal. -/

namespace Sys2Proof.Machine

/-- A word that some check rejects, in the decoder or on the operands, runs as the rejection with that check's code. -/
theorem runWord_of_rejectionCode {s : State} {w : Word} {code : BitVec 4} (h : rejectionCode s.cfg w = some code) :
    ∃ e, errCode e = code ∧ runWord w s = .next (s.reject e) := by
  cases hd : decode w with
  | error e =>
    rw [rejectionCode_of_decode_error hd] at h
    exact ⟨e, Option.some.inj h, by rw [runWord, hd]⟩
  | ok i =>
    rw [rejectionCode_of_decode_ok hd, Option.map_eq_some_iff] at h
    obtain ⟨e, he, hcode⟩ := h
    exact ⟨e, hcode, (runWord_of_decode hd s).trans (exec_of_operandError he)⟩

/-- A rejection changes no bit of STATUS outside ERR and ERRCODE (R222). -/
theorem statusRejected_getLsbD_of_ne {w : Word} {code : BitVec 4} {k : Nat} (herr : k ≠ 0)
    (hcode : ¬ (4 ≤ k ∧ k < 8)) : (statusRejected w code).getLsbD k = w.getLsbD k := by
  rw [statusRejected_getLsbD, if_neg herr, if_neg (fun ⟨h4, h8, _⟩ => hcode ⟨h4, h8⟩)]

/-- Settles O5: the rejected word runs as `reject`, whose STATUS is `statusRejected`. The decoder rejects R223's example
already, so its code does not depend on SW. -/
theorem rejectedCommandHasExactlyTheseEffects : Obligations.RejectedCommandHasExactlyTheseEffects := by
  constructor
  · intro s w code h
    obtain ⟨e, rfl, hrun⟩ := runWord_of_rejectionCode h
    exact ⟨statusRejected s.status (errCode e), hrun, statusErr_statusRejected _ _, statusErrCode_statusRejected _ _,
      fun _ => statusRejected_getLsbD_of_ne⟩
  · have hdecode : decode 0x2F00FFFF#32 = .error .rsvdField := by decide
    exact fun _ => rejectionCode_of_decode_error hdecode

/-- A presented word answers a next state, whether it is a command or not (R220, R226). -/
theorem runWord_next (w : Word) (s : State) : ∃ t, runWord w s = .next t := by
  cases hd : decode w with
  | error e => exact ⟨s.reject e, by rw [runWord, hd]⟩
  | ok i =>
    rw [runWord_of_decode hd]
    exact exec_next i s

/-- Whatever the pins carry, the operation of a boundary answers a next state (44_coordinator.md R191). -/
theorem runBoundary_next (inp : HostInput) (s : State) : ∃ t, runBoundary inp s = .next t := by
  unfold runBoundary
  split
  case isTrue => exact ⟨s.applyReset, rfl⟩
  case isFalse =>
    split
    case isTrue => exact runWord_next inp.cmd s
    case isFalse => exact ⟨runSequencer s, rfl⟩

/-- Settles O15: `step` refuses an illegal configuration only, and the operation it starts completes. -/
theorem everyOperationCompletes : Obligations.EveryOperationCompletes := by
  intro s hl
  rw [step_of_legal hl]
  exact runBoundary_next s.boundaryInput s.openBoundary

end Sys2Proof.Machine
end

section
/-! The obligations on reset (70_reset_and_hazards.md): the reset state, the step with `rst` asserted, and the invariant
at reset. -/

namespace Sys2Proof.Machine

/-! ### The reset state (R251) -/

/-- Settles O13: a bit's registers are those of `BitRegs.resetWith`, and the SFC's own are fields of the reset state. -/
theorem resetStateHoldsResetValues : Obligations.ResetStateHoldsResetValues :=
  fun c => ⟨State.resetWith_cfg c, fun _ => resetWith_reg, rfl, State.resetWith_ctrl c, State.resetWith_status c,
    rfl, rfl⟩

/-! ### The reset input (R250) -/

/-- With `rst` asserted the step is the reset, whatever the host presents (60_exceptions.md R225). -/
theorem step_reset {s : State} (hl : s.cfg.Legal) (hr : s.boundaryInput.rst = true) :
    step s = .next s.openBoundary.applyReset := by
  rw [step_of_legal hl, runBoundary, if_pos hr]

/-- `rst` leaves every bit as the reset state of the SFC's configuration has it. -/
theorem State.applyReset_reg (s : State) (i : Nat) : s.applyReset.reg i = (State.resetWith s.cfg).reg i :=
  State.reg_congr rfl i

/-- The only event of a reset is the reset of the outputs (log entry 5). -/
@[simp] theorem State.applyReset_out (s : State) : s.applyReset.out = [.reset] := rfl

/-- Settles O12: the step is the reset, whose registers are those of the reset state (O13) and whose one event is
neither a `cmd_done` nor a rising `step`. -/
theorem resetInputGivesResetValues : Obligations.ResetInputGivesResetValues := by
  intro s hl hr
  obtain ⟨-, hreg, hmsg, hctrl, hstatus, hrsp, hstep⟩ := resetStateHoldsResetValues s.cfg
  refine ⟨_, step_reset hl hr, rfl, (applyReset_inv (s := s.openBoundary) hl).shaped, fun i hi => ?_,
    hmsg, hctrl, hstatus, hrsp, hstep, ?_, ?_⟩
  · exact (State.applyReset_reg s.openBoundary i).trans (hreg i hi)
  · simp
  · simp

/-! ### The invariant at reset (10_state.md R27) -/

/-- The configuration of `State.reset` is legal (log entry 1). -/
theorem reference_legal : Config.reference.Legal := by decide

/-- Settles O16: `State.reset` is the reset state of a configuration that is legal. -/
theorem resetMeetsInvariant : Obligations.ResetMeetsInvariant :=
  ⟨fun _ => resetWith_inv, resetWith_inv reference_legal⟩

end Sys2Proof.Machine
end
